-- ==== Sys2Proof/Word.lean ====
section
/-! DEFINITION. The word type of the CORE: every register, memory cell, operand and opcode is an unsigned
eight-bit value (00_scope.md R8), and a general register is named by an index 0 to 7 (10_state.md R18). -/

namespace Sys2Proof

/-- A register, memory cell, operand byte or opcode byte (R8). -/
abbrev Byte := BitVec 8

/-- The index of a general register r0 to r7 (R18). -/
abbrev RegIdx := Fin 8

end Sys2Proof
end

