-- ==== Sys2Proof/Config.lean ====
section
/-! DEFINITION. The implementation parameters of 00_scope.md R7 as named constants (the set of ALU operations is
`aluOperations` in Decode.lean, after its type), and the type of the one parameter that the model takes as an argument, OPCODE_MAP (R7, 30_encoding.md R55, decision D1). The CORE leaves
no value open (R17), so there is no free value here. -/

namespace Sys2Proof.Config

/-- WORD (R7): the width of a register, cell, operand and opcode. The types write the number 8, so that arithmetic
decides on it; Laws/Config.lean proves that they have the widths named here. -/
abbrev wordBits : Nat := 8

/-- ADDR_WIDTH (R7): the width of pc, SP and every address. -/
abbrev addrWidth : Nat := 8

/-- The most operand bytes of an instruction (R7: 0, 1 or 2). -/
abbrev maxOperands : Nat := 2

/-- The length in bytes of an instruction with `operands` operand bytes (R7, R53). -/
abbrev instructionLength (operands : Nat) : Nat := 1 + operands

/-- The length in bytes of the longest instruction (R7, R53). -/
abbrev maxLength : Nat := instructionLength maxOperands

/-- MEM_SIZE (R7): the cells have the addresses 0 to 255. -/
abbrev memSize : Nat := 256

/-- NREG (R7): the indices are 0 to 7. -/
abbrev numRegs : Nat := 8

/-- SP_INDEX (R7, R20). -/
abbrev spIndex : RegIdx := 7

/-- SP_RESET (R7). -/
abbrev spReset : Byte := 0xF4

/-- PC_RESET (R7, R133). -/
abbrev pcReset : Byte := 0

/-- MEM_RESET (R7, R38): what a cell that nothing has written reads as. -/
abbrev memReset : Byte := 0

end Sys2Proof.Config

namespace Sys2Proof

/-- OPCODE_MAP (R55): the opcode byte of each of the nine instructions. The model takes any map whose nine values
are pairwise distinct, so the proof of that stands in the structure and no other map can be built. The default
values are in Decode.lean. -/
structure OpcodeMap where
  hlt : Byte
  ldi : Byte
  prn : Byte
  add : Byte
  mul : Byte
  push : Byte
  pop : Byte
  call : Byte
  ret : Byte
  distinct : [hlt, ldi, prn, add, mul, push, pop, call, ret].Nodup
  deriving DecidableEq, Repr

/-- The nine opcode bytes of a map, in the order of R55's table. -/
def OpcodeMap.values (m : OpcodeMap) : List Byte :=
  [m.hlt, m.ldi, m.prn, m.add, m.mul, m.push, m.pop, m.call, m.ret]

end Sys2Proof
end

