-- ==== Sys2Proof/Syntax.lean ====
section
/-! DEFINITION. The nine instructions (00_scope.md R2), one constructor for each row of spec/opcode_table.json. An
operand is the whole operand byte (30_encoding.md R54, R60, R61): a register operand may hold 8 to 255, which the
instruction then rejects as InvalidRegister (40_fetch_execute.md R76). -/

namespace Sys2Proof

/-- The instructions, with the operands in byte order and under the source's own names (R54). -/
inductive Instr where
  /-- R82: stop the engine. -/
  | hlt
  /-- R85: load an immediate into a register. -/
  | ldi (reg value : Byte)
  /-- R87: emit a register to the output stream. -/
  | prn (reg : Byte)
  /-- R91: add two registers. -/
  | add (regA regB : Byte)
  /-- R92: multiply two registers. -/
  | mul (regA regB : Byte)
  /-- R99: push a register. -/
  | push (reg : Byte)
  /-- R100: pop into a register. -/
  | pop (reg : Byte)
  /-- R105: call the subroutine whose address a register holds. -/
  | call (reg : Byte)
  /-- R107: return from a subroutine. -/
  | ret
  deriving DecidableEq, Repr

end Sys2Proof
end

