-- ==== Sys2Proof/Decode.lean ====
section
/-! DEFINITION. Formats, decode records, the decoder and the encoder (30_encoding.md), for any OPCODE_MAP, and the
default map. The decoder matches the whole opcode byte (R57) and reads no state (R64). -/

namespace Sys2Proof

/-! ## Formats and decode records -/

/-- The four formats of R54: no operand, one register, register and immediate, two registers. -/
inductive Format where
  | F0
  | FR
  | FRI
  | FRR
  deriving DecidableEq, Repr

/-- The length in bytes of each format (R54): one opcode byte and 0 to 2 operand bytes (R53). -/
def Format.width : Format → Nat
  | .F0 => 1
  | .FR => 2
  | .FRI => 3
  | .FRR => 3

/-- What an operand byte is: a register index (R60) or an immediate (R61). -/
inductive OperandKind where
  | register
  | immediate
  deriving DecidableEq, Repr

/-- The operand kinds of each format, in byte order (R54). -/
def Format.operands : Format → List OperandKind
  | .F0 => []
  | .FR => [.register]
  | .FRI => [.register, .immediate]
  | .FRR => [.register, .register]

/-- The operation tag handed to the ALU (42_alu.md R89, R90). `other` stands for every tag outside ADD and MUL: the
decoder never produces one, and it is here so that the ALU is total. DESIGN CHOICE (safe): eight bits, the width of
fault.info (log entry 7). -/
inductive AluOp where
  | add
  | mul
  | other (tag : Byte)
  deriving DecidableEq, Repr

/-- ALU operations (R7): the tags that the ALU has an operation for (R90). -/
def Config.aluOperations : List AluOp := [.add, .mul]

/-- The class column of R58: control, other, other (output), ALU, stack, control (stack). -/
inductive InstrClass where
  | control
  | other
  | output
  | alu
  | stack
  | controlStack
  deriving DecidableEq, Repr

/-- The last column of R58: memory access beyond the fetch. -/
inductive MemAccess where
  | none
  /-- Write one byte at SP - 1. -/
  | writeBelowSp
  /-- Read one byte at SP. -/
  | readAtSp
  deriving DecidableEq, Repr

/-- The decode record of R58. -/
structure DecodeRecord where
  width : Nat
  operands : List OperandKind
  cls : InstrClass
  aluOp : Option AluOp
  /-- Whether the engine applies the default advance (R78 case (a)). -/
  advance : Bool
  access : MemAccess
  deriving DecidableEq, Repr

/-- The format of each instruction (R54). -/
def Instr.format : Instr → Format
  | .hlt => .F0
  | .ldi _ _ => .FRI
  | .prn _ => .FR
  | .add _ _ => .FRR
  | .mul _ _ => .FRR
  | .push _ => .FR
  | .pop _ => .FR
  | .call _ => .FR
  | .ret => .F0

/-- The length of an instruction in bytes (R53, R62). -/
def Instr.width (i : Instr) : Nat := i.format.width

/-- The class of each instruction (R58). -/
def Instr.cls : Instr → InstrClass
  | .hlt => .control
  | .ldi _ _ => .other
  | .prn _ => .output
  | .add _ _ => .alu
  | .mul _ _ => .alu
  | .push _ => .stack
  | .pop _ => .stack
  | .call _ => .controlStack
  | .ret => .controlStack

/-- The ALU tag that the decoder gives each instruction (R58). -/
def Instr.aluOp : Instr → Option AluOp
  | .add _ _ => some .add
  | .mul _ _ => some .mul
  | .hlt => none
  | .ldi _ _ => none
  | .prn _ => none
  | .push _ => none
  | .pop _ => none
  | .call _ => none
  | .ret => none

/-- Whether the engine advances pc by the width after the instruction (R58, R78): all but HLT, CALL and RET. -/
def Instr.advances : Instr → Bool
  | .hlt => false
  | .ldi _ _ => true
  | .prn _ => true
  | .add _ _ => true
  | .mul _ _ => true
  | .push _ => true
  | .pop _ => true
  | .call _ => false
  | .ret => false

/-- The memory access of each instruction beyond its fetch (R41, R58). -/
def Instr.access : Instr → MemAccess
  | .hlt => .none
  | .ldi _ _ => .none
  | .prn _ => .none
  | .add _ _ => .none
  | .mul _ _ => .none
  | .push _ => .writeBelowSp
  | .pop _ => .readAtSp
  | .call _ => .writeBelowSp
  | .ret => .readAtSp

/-- The row of R58's table for an instruction. -/
def Instr.record (i : Instr) : DecodeRecord :=
  { width := i.width, operands := i.format.operands, cls := i.cls, aluOp := i.aluOp,
    advance := i.advances, access := i.access }

/-- The register bytes that an instruction reads (10_state.md R19); 7 is SP. -/
def Instr.regsRead : Instr → List Byte
  | .hlt => []
  | .ldi _ _ => []
  | .prn reg => [reg]
  | .add regA regB => [regA, regB]
  | .mul regA regB => [regA, regB]
  | .push reg => [reg, 7]
  | .pop _ => [7]
  | .call reg => [reg, 7]
  | .ret => [7]

/-- The register bytes that an instruction writes (10_state.md R19); 7 is SP. -/
def Instr.regsWritten : Instr → List Byte
  | .hlt => []
  | .ldi reg _ => [reg]
  | .prn _ => []
  | .add regA _ => [regA]
  | .mul regA _ => [regA]
  | .push _ => [7]
  | .pop reg => [reg, 7]
  | .call _ => [7]
  | .ret => [7]

/-! ## Opcode values -/

/-- The default OPCODE_MAP of R55. PRESUMED (unsafe): the spec marks these values as general knowledge of the LS-8
and not the source's (D1; log entry 1). -/
def defaultOpcodeMap : OpcodeMap where
  hlt := 0x01
  ldi := 0x82
  prn := 0x47
  add := 0xA0
  mul := 0xA2
  push := 0x45
  pop := 0x46
  call := 0x50
  ret := 0x11
  distinct := by decide

/-- The opcode byte of an instruction under a map (R55). -/
def Instr.opcode (m : OpcodeMap) : Instr → Byte
  | .hlt => m.hlt
  | .ldi _ _ => m.ldi
  | .prn _ => m.prn
  | .add _ _ => m.add
  | .mul _ _ => m.mul
  | .push _ => m.push
  | .pop _ => m.pop
  | .call _ => m.call
  | .ret => m.ret

/-! ## The decoder -/

/-- The complete decode (R67), from the opcode byte `b0`. `operand k` supplies byte k of the instruction (R53): it is
asked for only where the width needs that byte (R62, R66) and in byte order, so that an error in supplying it is the
first one met (40_fetch_execute.md R75). `unknown` makes the error of a byte that is no opcode (R59). -/
def decodeWith {ε : Type} (m : OpcodeMap) (unknown : Byte → ε) (operand : Nat → Except ε Byte) (b0 : Byte) :
    Except ε Instr :=
  if b0 = m.hlt then .ok .hlt
  else if b0 = m.ldi then do
    let b1 ← operand 1
    let b2 ← operand 2
    return .ldi b1 b2
  else if b0 = m.prn then do
    let b1 ← operand 1
    return .prn b1
  else if b0 = m.add then do
    let b1 ← operand 1
    let b2 ← operand 2
    return .add b1 b2
  else if b0 = m.mul then do
    let b1 ← operand 1
    let b2 ← operand 2
    return .mul b1 b2
  else if b0 = m.push then do
    let b1 ← operand 1
    return .push b1
  else if b0 = m.pop then do
    let b1 ← operand 1
    return .pop b1
  else if b0 = m.call then do
    let b1 ← operand 1
    return .call b1
  else if b0 = m.ret then .ok .ret
  else .error (unknown b0)

/-- Why a list of bytes is no instruction. -/
inductive DecodeError where
  /-- The first byte is none of the nine opcodes (R59). -/
  | unknownOpcode (opcode : Byte)
  /-- The list ends before the instruction does. -/
  | truncated
  deriving DecidableEq, Repr

/-- Byte k of a list of bytes (R53). -/
def byteOf (bytes : List Byte) (k : Nat) : Except DecodeError Byte :=
  match bytes[k]? with
  | some b => .ok b
  | none => .error .truncated

/-- The decoder on a list of bytes: the instruction at its head and the bytes after it. -/
def decode (m : OpcodeMap) (bytes : List Byte) : Except DecodeError (Instr × List Byte) := do
  let b0 ← byteOf bytes 0
  let i ← decodeWith m .unknownOpcode (byteOf bytes) b0
  return (i, bytes.drop i.width)

/-! ## The encoder -/

/-- The bytes of an instruction in ascending address order (R53, R54). -/
def encode (m : OpcodeMap) : Instr → List Byte
  | .hlt => [m.hlt]
  | .ldi reg value => [m.ldi, reg, value]
  | .prn reg => [m.prn, reg]
  | .add regA regB => [m.add, regA, regB]
  | .mul regA regB => [m.mul, regA, regB]
  | .push reg => [m.push, reg]
  | .pop reg => [m.pop, reg]
  | .call reg => [m.call, reg]
  | .ret => [m.ret]

/-! ## The opcode table's words -/

/-- The bytes of an opcode-table word, as the hardware stores them: the table numbers bit 0 as the least significant
bit of the first byte, so byte k is bits 8k+7 to 8k. Bits at and above `nbits` are zero, and three bytes hold the
longest instruction (R53). -/
def tableBytes (nbits w : Nat) : List Byte :=
  let v := w % 2 ^ nbits
  [BitVec.ofNat 8 v, BitVec.ofNat 8 (v / 2 ^ 8), BitVec.ofNat 8 (v / 2 ^ 16)]

/-- The instruction that the decoder reads, under the default OPCODE_MAP, from a word of the opcode table. -/
def decodeTableWord (nbits w : Nat) : Option Instr :=
  match decode defaultOpcodeMap (tableBytes nbits w) with
  | .ok (i, _) => some i
  | .error _ => none

end Sys2Proof
end

