-- ==== Sys2Proof/Machine/State.lean ====
section
/-! DEFINITION. The state of the CORE: exactly the tuple of 10_state.md R35, as plain data, and its reset value
(R36). Also the reasons for which a step takes no next state. -/

namespace Sys2Proof.Machine

/-- The engine run state (R29). -/
inductive Status where
  | running
  | halted
  | faulted
  deriving DecidableEq, Repr

/-- The four error kinds (60_exceptions.md R111). -/
inductive ErrorKind where
  | unknownOpcode
  | invalidRegister
  | outOfBoundsAddress
  | unsupportedAluOperation
  deriving DecidableEq, Repr

/-- The fault record (R30): written once, by the step that raises the error. -/
structure FaultRecord where
  kind : ErrorKind
  pc : Byte
  info : Byte
  deriving DecidableEq, Repr

/-- The reset value of the fault record (R30, R36): all fields 0. The kind with code 0 is UnknownOpcode (R111);
DEDUCED, safe (log entry 6). -/
def FaultRecord.reset : FaultRecord := { kind := .unknownOpcode, pc := 0, info := 0 }

/-- The register file: eight bytes, r0 first (R18). Register 7 is SP (R20). -/
abbrev RegFile := Vector Byte Config.numRegs

/-- The memory (20_memory.md R37) as a list of (address, byte) pairs. An address that is not listed reads as
`Config.memReset`. The canonical form is `Memory.wf` in Ops.lean. DESIGN CHOICE, safe (log entry 4). -/
abbrev Memory := List Host.Cell

/-- The complete state of the CORE (R35). -/
structure State where
  /-- General registers r0 to r7 (R18); r7 is SP, the same cell (R20). -/
  regs : RegFile
  /-- Program counter, eight bits (R24). -/
  pc : Byte
  /-- Engine run state (R29). -/
  status : Status
  /-- Fault record (R30). -/
  fault : FaultRecord
  /-- Observable output stream, oldest element first (R31). -/
  out : List Byte
  /-- The 256 memory cells (R33). -/
  mem : Memory
  deriving DecidableEq, Repr

/-- The machine right after reset, with no program image loaded (R36, R129; the image of no bytes, R132). -/
def State.reset : State where
  regs := #v[0, 0, 0, 0, 0, 0, 0, Config.spReset]
  pc := Config.pcReset
  status := .running
  fault := FaultRecord.reset
  out := []
  mem := []

/-- Why a step takes no next state. No instruction ends in one of these: an error of the CORE is a next state, with
status FAULTED (R81). DESIGN CHOICE, safe (log entry 3). -/
inductive Fault where
  /-- Answered by `step` alone, in a HALTED state: no step is enabled (R72), the state stays as it is and the run has
  ended cleanly (R137). Safe. -/
  | halted
  /-- Answered by `step` alone, in a FAULTED state: no step is enabled (R72), the state stays as it is, and `record`
  is its fault record (R30), which the host reads (R128). Safe. -/
  | faulted (record : FaultRecord)
  deriving DecidableEq, Repr

/-- Why the model refuses. -/
inductive Refusal where
  /-- Raised by an arm of `exec` for an instruction that has no meaning yet; no arm raises it. Safe. -/
  | notModelled (mnemonic : String)
  /-- Raised by `launch` alone: a program image longer than 256 bytes has no launch state, and the model refuses the
  launch (70_reset_and_hazards.md R132, D15). Safe. -/
  | imageTooLong
  deriving DecidableEq, Repr

end Sys2Proof.Machine
end

