-- ==== Sys2Proof/Machine/Ops.lean ====
section
/-! DEFINITION. The operations that the meanings share: registers, memory, the stack pointer's bounds, the pc's
advance, raising and entering an error, the stop of a HALTED or FAULTED core, and the reset input. -/

namespace Sys2Proof.Machine

/-- The outcome of one step. -/
abbrev StepResult := Host.Outcome State Fault Refusal

/-! ## Errors, their kinds and codes -/

/-- The sub-causes of OutOfBoundsAddress (60_exceptions.md R114). -/
inductive OobCause where
  | fetch
  | fallthrough
  | stackLow
  | stackHigh
  | retAddr
  deriving DecidableEq, Repr

/-- The sub-cause codes of R114 (D11). -/
def OobCause.code : OobCause → Byte
  | .fetch => 0x00
  | .fallthrough => 0x01
  | .stackLow => 0x02
  | .stackHigh => 0x03
  | .retAddr => 0x04

/-- What a step raises: one of the four error kinds with what R112 to R115 say its info is. -/
inductive Raise where
  /-- R112: the opcode byte. -/
  | unknownOpcode (opcode : Byte)
  /-- R113: the offending operand byte. -/
  | invalidRegister (index : Byte)
  /-- R114: the sub-cause. -/
  | outOfBounds (cause : OobCause)
  /-- R115: the tag. -/
  | unsupportedAluOperation (tag : Byte)
  deriving DecidableEq, Repr

/-- The kind of an error (R111). -/
def Raise.kind : Raise → ErrorKind
  | .unknownOpcode _ => .unknownOpcode
  | .invalidRegister _ => .invalidRegister
  | .outOfBounds _ => .outOfBoundsAddress
  | .unsupportedAluOperation _ => .unsupportedAluOperation

/-- The info of an error (R111, R112 to R115). -/
def Raise.info : Raise → Byte
  | .unknownOpcode opcode => opcode
  | .invalidRegister index => index
  | .outOfBounds cause => cause.code
  | .unsupportedAluOperation tag => tag

/-- The two-bit hardware code of an error kind (R111, D11). -/
def ErrorKind.code : ErrorKind → BitVec 2
  | .unknownOpcode => 0
  | .invalidRegister => 1
  | .outOfBoundsAddress => 2
  | .unsupportedAluOperation => 3

/-- The two-bit hardware code of the run state (R29, D11). -/
def Status.code : Status → BitVec 2
  | .running => 0b00
  | .halted => 0b01
  | .faulted => 0b10

/-! ## Registers -/

/-- x[r] (R9). No register is hard-wired (R23). -/
def State.reg (s : State) (r : RegIdx) : Byte := s.regs[r]

/-- x[r] <- v (R9). -/
def State.setReg (s : State) (r : RegIdx) (v : Byte) : State := { s with regs := s.regs.set r v }

/-- SP is another name for x[7] (R20). -/
def State.sp (s : State) : Byte := s.reg Config.spIndex

/-- SP <- v (R20). -/
def State.setSp (s : State) (v : Byte) : State := s.setReg Config.spIndex v

/-- pc <- target (R9). -/
def State.setPc (s : State) (target : Byte) : State := { s with pc := target }

/-- emit(v): append v to the output stream (41_register_io.md R86). -/
def State.emit (s : State) (v : Byte) : State := { s with out := s.out ++ [v] }

/-- Replace the memory. -/
def State.setMem (s : State) (m : Memory) : State := { s with mem := m }

/-- status <- st (R9). -/
def State.setStatus (s : State) (st : Status) : State := { s with status := st }

/-! ## Memory -/

/-- The byte at an address; an address that is not listed reads as MEM_RESET (20_memory.md R38). -/
def Memory.read : Memory → Nat → Byte
  | [], _ => Config.memReset
  | (b, v) :: rest, a => if b = a then v else Memory.read rest a

/-- Put a cell before the first cell with a higher address. -/
def Memory.insert (a : Nat) (v : Byte) : Memory → Memory
  | [] => [(a, v)]
  | (b, w) :: rest => if a < b then (a, v) :: (b, w) :: rest else (b, w) :: Memory.insert a v rest

/-- Take every cell of an address out of the list. -/
def Memory.erase (a : Nat) : Memory → Memory
  | [] => []
  | (b, w) :: rest => if b = a then Memory.erase a rest else (b, w) :: Memory.erase a rest

/-- Make the byte at `a` be `v`. The byte that an unlisted address reads as is not listed, so that equal memories are
equal lists (log entry 4). -/
def Memory.write (m : Memory) (a : Nat) (v : Byte) : Memory :=
  if v = Config.memReset then Memory.erase a m else Memory.insert a v (Memory.erase a m)

/-- The canonical form from the address `lo` on: addresses strictly rising and below MEM_SIZE, no entry equal to what
an unlisted address reads as. -/
def Memory.wfFrom (lo : Nat) : Memory → Bool
  | [] => true
  | (a, v) :: rest =>
    decide (lo ≤ a) && decide (a < Config.memSize) && decide (v ≠ Config.memReset) && Memory.wfFrom (a + 1) rest

/-- The canonical form of a memory (log entry 4). -/
def Memory.wf (m : Memory) : Bool := Memory.wfFrom 0 m

/-- Place bytes at ascending addresses from `base` (70_reset_and_hazards.md R131). A place outside memory does not
exist (R37), so a byte for it is dropped; `launch` refuses an image that would need one. -/
def Memory.load (m : Memory) (base : Nat) : List Byte → Memory
  | [] => m
  | v :: rest => Memory.load (if base < Config.memSize then m.write base v else m) (base + 1) rest

/-- MemRead(a, 1) (20_memory.md R39): `a` is an unbounded integer (R8). -/
def memRead (a : Int) (s : State) : Except Raise Byte :=
  if a < 0 ∨ 255 < a then .error (.outOfBounds .fetch) else .ok (Memory.read s.mem a.toNat)

/-- MemWrite(a, 1, v) (20_memory.md R40). -/
def memWrite (a : Int) (v : Byte) (s : State) : Except Raise State :=
  if a < 0 ∨ 255 < a then .error (.outOfBounds .stackLow)
  else .ok (s.setMem (Memory.write s.mem a.toNat v))

/-! ## Bounds of SP and pc -/

/-- SP <- SP - 1, with the decrement bound of 43_stack.md R97. -/
def decSp (s : State) : Except Raise State :=
  if s.sp = 0 then .error (.outOfBounds .stackLow) else .ok (s.setSp (s.sp - 1))

/-- SP <- SP + 1, with the increment bound of 43_stack.md R98; SP as it now stands. -/
def incSp (s : State) : Except Raise State :=
  if s.sp.toNat + 1 > 255 then .error (.outOfBounds .stackHigh) else .ok (s.setSp (s.sp + 1))

/-- The return address of a CALL, pc + 2, with the bound of 44_call_return.md R106. -/
def returnAddress (s : State) : Except Raise Byte :=
  if s.pc.toNat + 2 > 255 then .error (.outOfBounds .retAddr) else .ok (s.pc + 2)

/-- The default advance pc <- pc + width (40_fetch_execute.md R78 case (a)), with the end-of-memory check of R79. -/
def advance (width : Nat) (s : State) : Except Raise State :=
  if s.pc.toNat + width > 255 then .error (.outOfBounds .fallthrough)
  else .ok (s.setPc (s.pc + BitVec.ofNat 8 width))

/-! ## Error entry, the end of a step, the stop and the reset input -/

/-- The error entry, the only form of trap entry (60_exceptions.md R117, 40_fetch_execute.md R81): save the kind, the
pc of the faulting instruction and the info, set FAULTED, change nothing else. There is no trap return (R120); only
`applyReset` leaves FAULTED. -/
def takeError (e : Raise) (s : State) : State :=
  { s with status := .faulted, fault := { kind := e.kind, pc := s.pc, info := e.info } }

/-- The end of a step that began in `s` (R10, R83): commit what the pseudocode did, or, where it raised, discard every
write of the step and enter the error. -/
def commit (s : State) : Except Raise State → StepResult
  | .ok t => .next t
  | .error e => .next (takeError e s)

/-- What a step answers in a HALTED or FAULTED state: no step is enabled there (R72). DESIGN CHOICE, safe (log entry
3). A RUNNING state is never given to it by `step`, and stays as it is. -/
def stoppedStep (s : State) : StepResult :=
  match s.status with
  | .running => .next s
  | .halted => .fault .halted
  | .faulted => .fault (.faulted s.fault)

/-- The reset input (70_reset_and_hazards.md R130): registers, pc, status, fault and out take their reset values, and
memory is not written. -/
def applyReset (s : State) : State := { State.reset with mem := s.mem }

end Sys2Proof.Machine
end

