-- ==== Sys2Proof/Machine/Operands.lean ====
section
/-! DEFINITION. The operand forms. A register operand is the whole operand byte, checked against 0 to 7
(30_encoding.md R60, 40_fetch_execute.md R76). An immediate operand is the whole operand byte, used as it is with no
check, extension or scaling (R61), so it needs no operation. No operand names a memory address (R41). -/

namespace Sys2Proof.Machine

/-- The register that an operand byte names, or InvalidRegister with that byte (R76, 60_exceptions.md R113). No bit of
the byte is masked off (R60). -/
def checkReg (b : Byte) : Except Raise RegIdx :=
  if h : b.toNat < Config.numRegs then .ok ⟨b.toNat, h⟩ else .error (.invalidRegister b)

/-- The operand byte that names a register: its index (R60). -/
def regByte (r : RegIdx) : Byte := BitVec.ofNat 8 r.val

end Sys2Proof.Machine
end

