-- ==== Sys2Proof/Machine/Alu.lean ====
section
/-! DEFINITION. The ALU and its two instructions, ADD and MUL (42_alu.md). The sum and the product of bytes are
modulo 256 (R93). -/

namespace Sys2Proof.Machine

/-- The result of an ALU operation, or UnsupportedAluOperation for another tag (R89, R90). -/
def aluResult (op : AluOp) (a b : Byte) : Except Raise Byte :=
  match op with
  | .add => .ok (a + b)
  | .mul => .ok (a * b)
  | .other tag => .error (.unsupportedAluOperation tag)

/-- ALU(op, d, s) (R89): both operands are read before the destination is written (R94). -/
def alu (op : AluOp) (dest src : RegIdx) (s : State) : Except Raise State := do
  let r ← aluResult op (s.reg dest) (s.reg src)
  return s.setReg dest r

/-- ADD (R91): ALU.apply(ADD, reg_a, reg_b), then the default advance. -/
def execAdd (regA regB : Byte) (s : State) : StepResult :=
  commit s do
    let a ← checkReg regA
    let b ← checkReg regB
    let t ← alu .add a b s
    advance (Instr.add regA regB).width t

/-- MUL (R92): ALU.apply(MUL, reg_a, reg_b), then the default advance. -/
def execMul (regA regB : Byte) (s : State) : StepResult :=
  commit s do
    let a ← checkReg regA
    let b ← checkReg regB
    let t ← alu .mul a b s
    advance (Instr.mul regA regB).width t

end Sys2Proof.Machine
end

