-- ==== Sys2Proof/Machine/CallReturn.lean ====
section
/-! DEFINITION. The call/return dispatcher: CALL and RET (44_call_return.md). Both write pc themselves and get no
default advance (40_fetch_execute.md R78 case (b)). -/

namespace Sys2Proof.Machine

/-- CALL (R105): push the return address pc + 2, then pc <- x[reg], read after the decrement (R110). The stack check
comes before the return-address check. -/
def execCall (reg : Byte) (s : State) : StepResult :=
  commit s do
    let r ← checkReg reg
    let t ← decSp s
    let ra ← returnAddress s
    let u ← memWrite t.sp.toNat ra t
    return u.setPc (u.reg r)

/-- RET (R107): pc <- M[SP], SP <- SP + 1. -/
def execRet (s : State) : StepResult :=
  commit s do
    let target ← memRead s.sp.toNat s
    let t ← incSp s
    return t.setPc target

end Sys2Proof.Machine
end

