-- ==== Sys2Proof/Machine/Control.lean ====
section
/-! DEFINITION. The one instruction that is only control of the cycle: HLT (40_fetch_execute.md R82). -/

namespace Sys2Proof.Machine

/-- HLT (R82): status <- HALTED. pc stays at the HLT's own address (R78), and nothing can be raised. -/
def execHlt (s : State) : StepResult :=
  commit s (.ok (s.setStatus .halted))

end Sys2Proof.Machine
end

