-- ==== Sys2Proof/Machine/RegisterIo.lean ====
section
/-! DEFINITION. Register load and output: LDI and PRN (41_register_io.md). -/

namespace Sys2Proof.Machine

/-- LDI (R85): x[reg] <- value, then the default advance. The value is not checked (R61, R76). -/
def execLdi (reg value : Byte) (s : State) : StepResult :=
  commit s do
    let r ← checkReg reg
    advance (Instr.ldi reg value).width (s.setReg r value)

/-- PRN (R87): emit(x[reg]), then the default advance. Where the step raises, nothing is emitted (R86). -/
def execPrn (reg : Byte) (s : State) : StepResult :=
  commit s do
    let r ← checkReg reg
    advance (Instr.prn reg).width (s.emit (s.reg r))

end Sys2Proof.Machine
end

