-- ==== Sys2Proof/Machine/Stack.lean ====
section
/-! DEFINITION. PUSH and POP on the full descending stack (43_stack.md R96). The statements run in the order the spec
writes them, each seeing the writes before it (R10, R101). -/

namespace Sys2Proof.Machine

/-- PUSH (R99): SP <- SP - 1, then M[SP] <- x[reg], read after the decrement, then the default advance. -/
def execPush (reg : Byte) (s : State) : StepResult :=
  commit s do
    let r ← checkReg reg
    let t ← decSp s
    let u ← memWrite t.sp.toNat (t.reg r) t
    advance (Instr.push reg).width u

/-- POP (R100): x[reg] <- M[SP], then SP <- SP + 1 on SP as now written, then the default advance. -/
def execPop (reg : Byte) (s : State) : StepResult :=
  commit s do
    let r ← checkReg reg
    let v ← memRead s.sp.toNat s
    let t ← incSp (s.setReg r v)
    advance (Instr.pop reg).width t

end Sys2Proof.Machine
end

