-- ==== Sys2Proof/Machine/Fetch.lean ====
section
/-! DEFINITION. The instruction fetch unit (40_fetch_execute.md R73 to R75). Every step fetches from memory as it
stands (20_memory.md R51). -/

namespace Sys2Proof.Machine

/-- Fetch and decode at pc (R73, R74, R75): the opcode byte first, then the operand bytes that the width needs, each
through MemRead, whose bound raises OOB_FETCH. -/
def fetch (opcodes : OpcodeMap) (s : State) : Except Raise Instr := do
  let b0 ← memRead s.pc.toNat s
  decodeWith opcodes .unknownOpcode (fun k => memRead (s.pc.toNat + k) s) b0

/-- The bytes of memory from pc to the end of memory, in address order. -/
def codeBytes (s : State) : List Byte :=
  (List.range (Config.memSize - s.pc.toNat)).map fun k => Memory.read s.mem (s.pc.toNat + k)

end Sys2Proof.Machine
end

