-- ==== Sys2Proof/Machine/Step.lean ====
section
/-! DEFINITION. One step of the CORE (40_fetch_execute.md R83), for any OPCODE_MAP and for the default one. -/

namespace Sys2Proof.Machine

/-- One step under an OPCODE_MAP (R72, R83): in RUNNING, fetch, decode and execute, or enter the error that the fetch
raises; in HALTED and FAULTED no step is enabled. -/
def stepWith (opcodes : OpcodeMap) (s : State) : StepResult :=
  match s.status with
  | .running =>
    match fetch opcodes s with
    | .ok i => exec i s
    | .error e => commit s (.error e)
  | .halted => stoppedStep s
  | .faulted => stoppedStep s

/-- One step under the default OPCODE_MAP of R55 (log entry 1). -/
def step (s : State) : Host.Outcome State Fault Refusal := stepWith defaultOpcodeMap s

/-- The state in which the next step fetches a word of the opcode table: its three bytes are placed at pc, and status
is RUNNING, in which alone a step fetches (R72). A byte whose place would be past 0xFF has none (log entry 5). -/
def State.withFetchWord (s : State) (nbits w : Nat) : State :=
  { s with status := .running, mem := Memory.load s.mem s.pc.toNat (tableBytes nbits w) }

end Sys2Proof.Machine
end

