-- ==== Sys2Proof/WellFormed.lean ====
section
/-! DEFINITION. Which instructions name only registers that exist. An instruction that is not well formed can be
encoded and fetched, and raises InvalidRegister when it runs (40_fetch_execute.md R76, 60_exceptions.md R113). -/

namespace Sys2Proof

/-- The operand bytes that are register indices, in byte order (R76): both of ADD and MUL, the first of LDI (its
second is a value), the one operand of PRN, PUSH, POP and CALL. -/
def Instr.registerOperands : Instr → List Byte
  | .hlt => []
  | .ldi reg _ => [reg]
  | .prn reg => [reg]
  | .add regA regB => [regA, regB]
  | .mul regA regB => [regA, regB]
  | .push reg => [reg]
  | .pop reg => [reg]
  | .call reg => [reg]
  | .ret => []

/-- A byte names a general register when it is 0 to 7 (R22, R60). -/
def namesRegister (b : Byte) : Bool := decide (b.toNat < Config.numRegs)

/-- Every register operand is an index 0 to 7 (R22). -/
def Instr.wellFormed (i : Instr) : Bool := i.registerOperands.all namesRegister

end Sys2Proof
end

