-- ==== Sys2Proof/Machine/Assembly.lean ====
section
/-! DEFINITION. The assembly syntax of 30_encoding.md R68 (00_scope.md R12, D20), on lists of characters: an assembler
and the writing of one instruction. It is no part of the CORE, and the machine does not use it. There is no
pseudo-instruction, directive or label (R69). The points that R68 leaves open are DESIGN CHOICE (log entry 9). -/

namespace Sys2Proof.Assembly

/-- Cut a list of characters at every character that `sep` holds of. -/
def splitAtSep (sep : Char → Bool) : List Char → List (List Char)
  | [] => [[]]
  | c :: rest =>
    if sep c then [] :: splitAtSep sep rest
    else
      match splitAtSep sep rest with
      | [] => [[c]]
      | word :: words => (c :: word) :: words

/-- The words of one statement, which are separated by spaces. -/
def words (statement : List Char) : List (List Char) :=
  (splitAtSep (fun c => c == ' ') statement).filter fun w => !w.isEmpty

/-- The value of a decimal digit. -/
def decimalDigit (c : Char) : Option Nat :=
  if '0'.toNat ≤ c.toNat ∧ c.toNat ≤ '9'.toNat then some (c.toNat - '0'.toNat) else none

/-- The value of a hexadecimal digit, in either letter case (log entry 9). -/
def hexDigit (c : Char) : Option Nat :=
  if 'A'.toNat ≤ c.toNat ∧ c.toNat ≤ 'F'.toNat then some (c.toNat - 'A'.toNat + 10)
  else if 'a'.toNat ≤ c.toNat ∧ c.toNat ≤ 'f'.toNat then some (c.toNat - 'a'.toNat + 10)
  else decimalDigit c

/-- A number in a base, after the digits already read (`acc`). -/
def digitsFrom (base : Nat) (digit : Char → Option Nat) : Nat → List Char → Option Nat
  | acc, [] => some acc
  | acc, c :: rest =>
    match digit c with
    | some d => digitsFrom base digit (acc * base + d) rest
    | none => none

/-- An immediate (R68): a decimal number 0 to 255, or a hexadecimal one with the prefix 0x. -/
def immediate (w : List Char) : Option Byte :=
  let n? :=
    match w with
    | [] => none
    | '0' :: 'x' :: d :: rest => digitsFrom 16 hexDigit 0 (d :: rest)
    | _ => digitsFrom 10 decimalDigit 0 w
  match n? with
  | some n => if n ≤ 255 then some (BitVec.ofNat 8 n) else none
  | none => none

/-- A register (R68): r0 to r7, or SP as another spelling of r7. -/
def register (w : List Char) : Option Byte :=
  match w with
  | ['S', 'P'] => some 7
  | ['r', d] =>
    match decimalDigit d with
    | some n => if n < 8 then some (BitVec.ofNat 8 n) else none
    | none => none
  | _ => none

/-- One instruction from its words (R68): the upper-case mnemonic, then the operands in byte order. -/
def instruction : List (List Char) → Option Instr
  | [['H', 'L', 'T']] => some .hlt
  | [['L', 'D', 'I'], a, b] => do return .ldi (← register a) (← immediate b)
  | [['P', 'R', 'N'], a] => do return .prn (← register a)
  | [['A', 'D', 'D'], a, b] => do return .add (← register a) (← register b)
  | [['M', 'U', 'L'], a, b] => do return .mul (← register a) (← register b)
  | [['P', 'U', 'S', 'H'], a] => do return .push (← register a)
  | [['P', 'O', 'P'], a] => do return .pop (← register a)
  | [['C', 'A', 'L', 'L'], a] => do return .call (← register a)
  | [['R', 'E', 'T']] => some .ret
  | _ => none

/-- The instructions of a program text, whose statements are separated by a newline or by a semicolon (R68). A
statement with no word is skipped (log entry 9). -/
def program (text : List Char) : Option (List Instr) :=
  let statements := (splitAtSep (fun c => c == '\n' || c == ';') text).map words
  (statements.filter fun ws => !ws.isEmpty).mapM instruction

/-- The assembler (R68): each instruction becomes its opcode byte followed by its operand bytes. -/
def assemble (opcodes : OpcodeMap) (text : List Char) : Option (List Byte) :=
  (program text).map fun is => is.flatMap (encode opcodes)

/-- A register operand as R68 writes it. -/
def showRegister (b : Byte) : List Char := 'r' :: Nat.toDigits 10 b.toNat

/-- An instruction as R68 writes it, immediates in decimal. An instruction that names a register outside r0 to r7
cannot be written. -/
def listing (i : Instr) : Option (List Char) :=
  if i.wellFormed then
    some <|
      match i with
      | .hlt => ['H', 'L', 'T']
      | .ldi reg value => ['L', 'D', 'I', ' '] ++ showRegister reg ++ [' '] ++ Nat.toDigits 10 value.toNat
      | .prn reg => ['P', 'R', 'N', ' '] ++ showRegister reg
      | .add regA regB => ['A', 'D', 'D', ' '] ++ showRegister regA ++ [' '] ++ showRegister regB
      | .mul regA regB => ['M', 'U', 'L', ' '] ++ showRegister regA ++ [' '] ++ showRegister regB
      | .push reg => ['P', 'U', 'S', 'H', ' '] ++ showRegister reg
      | .pop reg => ['P', 'O', 'P', ' '] ++ showRegister reg
      | .call reg => ['C', 'A', 'L', 'L', ' '] ++ showRegister reg
      | .ret => ['R', 'E', 'T']
  else none

end Sys2Proof.Assembly
end

