-- ==== Sys2Proof/Machine/HostPorts.lean ====
section
/-! DEFINITION. The host's side of the CORE (70_reset_and_hazards.md R135, R136): bringing it up with a program image,
and the status and fault outputs. The reset input is `applyReset` in Ops.lean; the output port is the stream `out`. -/

namespace Sys2Proof.Machine

/-- Bring up the CORE with a program image (R135): memory is zero, the image is placed from address 0 with no gaps
(R131), the CORE is reset (R130). An image longer than 256 bytes has no launch state and is refused (R132). -/
def launch (image : List Byte) : StepResult :=
  if image.length ≤ Config.memSize then
    .next (applyReset { State.reset with mem := Memory.load [] 0 image })
  else .refused .imageTooLong

/-- The status and fault outputs (D4): two bits of status, two bits of kind, eight bits of pc and of info. -/
structure Ports where
  status : BitVec 2
  faultKind : BitVec 2
  faultPc : Byte
  faultInfo : Byte
  deriving DecidableEq, Repr

/-- What the status and fault outputs carry in a state (R29, R30, R111). -/
def State.ports (s : State) : Ports :=
  { status := s.status.code, faultKind := s.fault.kind.code, faultPc := s.fault.pc, faultInfo := s.fault.info }

/-- The three outcomes that the CORE shows the host (60_exceptions.md R128). -/
inductive HostOutcome where
  | notYetEnded
  | cleanEnd
  | error (kind : ErrorKind)
  deriving DecidableEq, Repr

/-- The outcome that a state shows the host (R128): HALTED is a clean end, FAULTED an error with its kind. -/
def State.outcome (s : State) : HostOutcome :=
  match s.status with
  | .running => .notYetEnded
  | .halted => .cleanEnd
  | .faulted => .error s.fault.kind

end Sys2Proof.Machine
end

