-- ==== Sys2Proof/Safety.lean ====
section
/-! DEFINITION. What claims about the CORE are stated in: runs and their ends, the step read as "every check first,
then one commit" (00_scope.md R10 calls any model with the same observable effect correct), and the invariant of
every step. None of these is used by the machine. -/

namespace Sys2Proof

/-! ## What an opcode byte fixes -/

/-- The opcodes of the instructions that get the default advance (R78 case (a)). -/
def OpcodeMap.advancing (m : OpcodeMap) : List Byte := [m.ldi, m.prn, m.add, m.mul, m.push, m.pop]

/-- The opcodes whose byte 1 is a register operand (R76). -/
def OpcodeMap.byteOneRegister (m : OpcodeMap) : List Byte := [m.ldi, m.prn, m.add, m.mul, m.push, m.pop, m.call]

/-- The width that an opcode byte fixes (R53, R62); 1 for a byte that is no opcode, of which no more is fetched. -/
def OpcodeMap.widthOf (m : OpcodeMap) (b : Byte) : Nat :=
  if b ∈ [m.ldi, m.add, m.mul] then 3 else if b ∈ [m.prn, m.push, m.pop, m.call] then 2 else 1

end Sys2Proof

namespace Sys2Proof.Machine

/-! ## Runs -/

/-- The state after at most `n` steps (R137): a HALTED or FAULTED state takes no further step (R72). -/
def runWith (opcodes : OpcodeMap) : Nat → State → State
  | 0, s => s
  | n + 1, s =>
    match stepWith opcodes s with
    | .next t => runWith opcodes n t
    | .fault _ => s
    | .refused _ => s

/-- A run from `s` ends in `t`: the first state of the run whose status is HALTED or FAULTED (R137). -/
def EndsIn (opcodes : OpcodeMap) (s t : State) : Prop :=
  ∃ n, runWith opcodes n s = t ∧ t.status ≠ .running

/-- A clean end (R137): the run ends in HALTED. -/
def EndsCleanly (opcodes : OpcodeMap) (s : State) : Prop :=
  ∃ t, EndsIn opcodes s t ∧ t.status = .halted

/-! ## Every check first, then one commit -/

/-- The byte of memory at an address. -/
def State.byteAt (s : State) (a : Nat) : Byte := Memory.read s.mem a

/-- Byte k of the instruction at pc (R53). -/
def State.codeByte (s : State) (k : Nat) : Byte := s.byteAt (s.pc.toNat + k)

/-- SP just before the increment of a POP: the popped byte where the operand is 7, else SP (R98, R101). -/
def State.spToIncrement (s : State) : Byte :=
  if s.codeByte 1 = 7 then s.byteAt s.sp.toNat else s.sp

/-- The error conditions of a step, in the order of 40_fetch_execute.md R80 (the spec's own decision D12), each with
what it raises. The bounds are the spec's own decisions D5 to D9, and SP before POP r7's increment is its D22. -/
def errorChecks (m : OpcodeMap) (s : State) : List (Bool × Raise) :=
  let p := s.pc.toNat
  let b0 := s.codeByte 0
  let b1 := s.codeByte 1
  let b2 := s.codeByte 2
  let w := m.widthOf b0
  [ (decide (b0 ∉ m.values), .unknownOpcode b0),
    (decide (255 < p + (w - 1)), .outOfBounds .fetch),
    (decide (b0 ∈ m.byteOneRegister ∧ 7 < b1.toNat), .invalidRegister b1),
    (decide (b0 ∈ [m.add, m.mul] ∧ 7 < b2.toNat), .invalidRegister b2),
    (decide (b0 ∈ [m.push, m.call] ∧ s.sp = 0), .outOfBounds .stackLow),
    (decide (b0 = m.pop ∧ s.spToIncrement = 255 ∨ b0 = m.ret ∧ s.sp = 255), .outOfBounds .stackHigh),
    (decide (b0 = m.call ∧ 255 < p + 2), .outOfBounds .retAddr),
    (decide (b0 ∈ m.advancing ∧ 255 < p + w), .outOfBounds .fallthrough) ]

/-- The first error of a list whose condition holds. -/
def firstRaised : List (Bool × Raise) → Option Raise
  | [] => none
  | (holds, e) :: rest => if holds then some e else firstRaised rest

/-- The error that a step from `s` reports: the first that applies (R80, R118). -/
def firstError (m : OpcodeMap) (s : State) : Option Raise := firstRaised (errorChecks m s)

/-- The register that operand byte k names, by its low three bits: for use where the byte is 0 to 7. -/
def State.operandReg (s : State) (k : Nat) : RegIdx := Fin.ofNat 8 (s.codeByte k).toNat

/-- The effect of the instruction at pc where no error condition holds: the effect column of the spec, with no check
left in it. Where PUSH, POP and CALL name r7, the statements see each other's writes (the spec's own decision D22). -/
def uncheckedEffect (m : OpcodeMap) (s : State) : State :=
  let b0 := s.codeByte 0
  let r1 := s.operandReg 1
  let r2 := s.operandReg 2
  if b0 = m.hlt then { s with status := .halted }
  else if b0 = m.ldi then { s.setReg r1 (s.codeByte 2) with pc := s.pc + 3 }
  else if b0 = m.prn then { s with out := s.out ++ [s.reg r1], pc := s.pc + 2 }
  else if b0 = m.add then { s.setReg r1 (s.reg r1 + s.reg r2) with pc := s.pc + 3 }
  else if b0 = m.mul then { s.setReg r1 (s.reg r1 * s.reg r2) with pc := s.pc + 3 }
  else if b0 = m.push then
    let t := s.setSp (s.sp - 1)
    { t with mem := Memory.write s.mem t.sp.toNat (t.reg r1), pc := s.pc + 2 }
  else if b0 = m.pop then
    let t := s.setReg r1 (s.byteAt s.sp.toNat)
    { t.setSp (t.sp + 1) with pc := s.pc + 2 }
  else if b0 = m.call then
    let t := s.setSp (s.sp - 1)
    { t with mem := Memory.write s.mem t.sp.toNat (s.pc + 2), pc := t.reg r1 }
  else { s.setSp (s.sp + 1) with pc := s.byteAt s.sp.toNat }

/-- The state after an error of kind `k` with info `info` raised in `s` (R81, R117): FAULTED, with the record, and
nothing else changed. -/
def State.faultedWith (s : State) (k : ErrorKind) (info : Byte) : State :=
  { s with status := .faulted, fault := { kind := k, pc := s.pc, info := info } }

/-! ## The invariant -/

/-- What every step keeps: memory stays in its canonical form; a FAULTED state's record is the first error condition
that still holds in it, at its own pc (R81, R117: the error changed nothing else); the record is at its reset value
until then (R30: it is written once); a HALTED state's pc still holds the HLT's address (R82). -/
structure State.Inv (m : OpcodeMap) (s : State) : Prop where
  memCanonical : Memory.wf s.mem = true
  faultExplained : s.status = .faulted →
    ∃ e, firstError m s = some e ∧ s.fault = { kind := e.kind, pc := s.pc, info := e.info }
  faultUnwritten : s.status ≠ .faulted → s.fault = FaultRecord.reset
  haltedAtHlt : s.status = .halted → s.codeByte 0 = m.hlt

end Sys2Proof.Machine
end

