-- ==== Sys2Proof/Certificates/Slice0/Obligations.lean ====
section
/-! DEFINITION. The statements about the CORE. They hold for every OPCODE_MAP unless they name the default one (log
entry 1). Where a rule of the spec is marked there as the spec's own decision D<n>, the docstring names it. -/

open Sys2Proof Sys2Proof.Machine

/-! ## Launch and reset -/

/-- R131: at launch, cell i holds byte i of the image, and 0 where the image has no byte i. -/
def Obligations.LaunchPlacesImage : Prop :=
  ∀ image : List Byte, image.length ≤ 256 →
    ∃ s, launch image = .next s ∧ ∀ a, a < 256 → s.byteAt a = image.getD a 0

/-- 10_state.md section 5: the launch values of everything but memory. The fault record's and the stream's values are
the spec's own decisions D11 and D14. With the image of no bytes the launch state is `State.reset`. -/
def Obligations.LaunchValues : Prop :=
  (∀ image : List Byte, image.length ≤ 256 →
    ∃ s, launch image = .next s ∧ (∀ r : RegIdx, s.reg r = if r = 7 then 0xF4 else 0) ∧ s.pc = 0 ∧
      s.status = .running ∧ s.fault.kind.code = 0 ∧ s.fault.pc = 0 ∧ s.fault.info = 0 ∧ s.out = []) ∧
  launch [] = .next State.reset

/-- 70_reset_and_hazards.md section 1: an image of more than 256 bytes is refused (the spec's own decision D15); the
image of no bytes is legal, and its first step raises UnknownOpcode(0x00) at pc 0 under the default map. -/
def Obligations.OversizedImageRefusedEmptyLegal : Prop :=
  (∀ image : List Byte, 256 < image.length → launch image = .refused .imageTooLong) ∧
  ∃ s, launch [] = .next s ∧ step s = .next (s.faultedWith .unknownOpcode 0x00)

/-- 70_reset_and_hazards.md section 1 (the spec's own decision D14): the reset input writes registers, pc, status,
fault and out, does not write memory, and the CORE can step again whatever its status was. -/
def Obligations.ResetInputKeepsMemory : Prop :=
  ∀ s : State, (applyReset s).mem = s.mem ∧ (applyReset s).regs = State.reset.regs ∧ (applyReset s).pc = 0 ∧
    (applyReset s).status = .running ∧ (applyReset s).fault = FaultRecord.reset ∧ (applyReset s).out = [] ∧
    ∀ m : OpcodeMap, ∃ t, stepWith m (applyReset s) = .next t

/-! ## Encoding and fetch -/

/-- 30_encoding.md sections 1 and 2: words written out from the spec's table under the default map (whose values the
spec takes from general knowledge; log entry 1). -/
def Obligations.DefaultOpcodeWords : Prop :=
  ∀ b1 b2 : Byte,
    decode defaultOpcodeMap [0b00000001] = .ok (.hlt, []) ∧
    decode defaultOpcodeMap [0b10000010, b1, b2] = .ok (.ldi b1 b2, []) ∧
    decode defaultOpcodeMap [0b01000111, b1] = .ok (.prn b1, []) ∧
    decode defaultOpcodeMap [0b10100000, b1, b2] = .ok (.add b1 b2, []) ∧
    decode defaultOpcodeMap [0b10100010, b1, b2] = .ok (.mul b1 b2, []) ∧
    decode defaultOpcodeMap [0b01000101, b1] = .ok (.push b1, []) ∧
    decode defaultOpcodeMap [0b01000110, b1] = .ok (.pop b1, []) ∧
    decode defaultOpcodeMap [0b01010000, b1] = .ok (.call b1, []) ∧
    decode defaultOpcodeMap [0b00010001] = .ok (.ret, [])

/-- 30_encoding.md section 2: the default opcode bytes follow the LS-8's field layout (the spec takes both from
general knowledge; log entry 1): bits 7 and 6 are the operand count, bit 5 is set for the ALU's instructions, bit 4
for those that set pc. The decoder reads none of these fields. -/
def Obligations.DefaultOpcodeLayout : Prop :=
  ∀ i : Instr,
    ((i.opcode defaultOpcodeMap).extractLsb' 6 2).toNat + 1 = i.width ∧
    ((i.opcode defaultOpcodeMap).getLsbD 5 = true ↔ i.cls = .alu) ∧
    ((i.opcode defaultOpcodeMap).getLsbD 4 = true ↔ i.cls = .controlStack)

/-- 30_encoding.md sections 1 and 3: under any OPCODE_MAP, decoding the bytes of any instruction, whatever follows
them, gives the instruction back with every operand, and the bytes that follow. -/
def Obligations.DecodeInvertsEncode : Prop :=
  ∀ (m : OpcodeMap) (i : Instr) (rest : List Byte), decode m (encode m i ++ rest) = .ok (i, rest)

/-- 30_encoding.md sections 1 and 3: what decodes to an instruction is that instruction's own bytes, so no byte
sequence has a second reading. -/
def Obligations.DecodedBytesAreTheEncoding : Prop :=
  ∀ (m : OpcodeMap) (bytes rest : List Byte) (i : Instr),
    decode m bytes = .ok (i, rest) → bytes = encode m i ++ rest

/-- 30_encoding.md section 3: a byte outside the map is illegal; fetching it raises UnknownOpcode and changes no
register, memory cell, pc or output. With the default map (log entry 1) these are the 247 values that the spec
lists. -/
def Obligations.OpcodeOutsideMapIsIllegal : Prop :=
  (∀ (m : OpcodeMap) (b : Byte), b ∉ m.values →
    (∀ rest, decode m (b :: rest) = .error (.unknownOpcode b)) ∧
    ∀ s : State, s.status = .running → s.byteAt s.pc.toNat = b →
      ∃ t, stepWith m s = .next t ∧ t.status = .faulted ∧ t.fault.kind = .unknownOpcode ∧
        t.regs = s.regs ∧ t.mem = s.mem ∧ t.pc = s.pc ∧ t.out = s.out) ∧
  (∀ b : Byte, b ∉ defaultOpcodeMap.values ↔
    b = 0x00 ∨ (0x02 ≤ b ∧ b ≤ 0x10) ∨ (0x12 ≤ b ∧ b ≤ 0x44) ∨ (0x48 ≤ b ∧ b ≤ 0x4F) ∨ (0x51 ≤ b ∧ b ≤ 0x81) ∨
      (0x83 ≤ b ∧ b ≤ 0x9F) ∨ b = 0xA1 ∨ 0xA3 ≤ b) ∧
  ((List.range 256).filter fun n => decide (BitVec.ofNat 8 n ∉ defaultOpcodeMap.values)).length = 247

/-- R66: bytes beyond the instruction's width have no effect on it; an HLT at 0xFF raises nothing. -/
def Obligations.BytesBeyondWidthDoNotMatter : Prop :=
  (∀ (m : OpcodeMap) (s t : State) (i : Instr), fetch m s = .ok i → t.pc = s.pc →
    (∀ k, k < i.width → t.codeByte k = s.codeByte k) → fetch m t = .ok i) ∧
  ∀ (m : OpcodeMap) (s : State), s.status = .running → s.pc = 0xFF → s.byteAt 0xFF = m.hlt →
    ∃ t, stepWith m s = .next t ∧ t.status = .halted

/-- 40_fetch_execute.md section 6: in RUNNING, where the bytes at pc decode to an instruction, the step is exec of it;
and bytes at pc that are an instruction's encoding, all inside memory, do decode to it. `step` is the step under the
default map. -/
def Obligations.StepRunsDecodedInstruction : Prop :=
  (∀ (m : OpcodeMap) (s : State) (i : Instr) (rest : List Byte), s.status = .running →
    decode m (codeBytes s) = .ok (i, rest) → stepWith m s = exec i s) ∧
  (∀ (m : OpcodeMap) (s : State) (i : Instr), s.status = .running → s.pc.toNat + i.width ≤ 256 →
    (∀ k, k < i.width → (encode m i)[k]? = some (s.codeByte k)) → stepWith m s = exec i s) ∧
  ∀ s : State, step s = stepWith defaultOpcodeMap s

/-- 40_fetch_execute.md section 2 (the spec's own decision D6): an operand byte whose address is above 255 raises
OOB_FETCH (0x00), and the address does not wrap. -/
def Obligations.OperandFetchPastEndRaises : Prop :=
  ∀ (m : OpcodeMap) (s : State), s.status = .running → s.byteAt s.pc.toNat ∈ m.values →
    256 < s.pc.toNat + m.widthOf (s.byteAt s.pc.toNat) →
    stepWith m s = .next (s.faultedWith .outOfBoundsAddress 0x00)

/-! ## The engine's states and its errors -/

/-- 40_fetch_execute.md section 1 (the spec's own decision D13): a step is enabled exactly in RUNNING; in HALTED and
FAULTED there is none. -/
def Obligations.StepEnabledExactlyWhileRunning : Prop :=
  ∀ (m : OpcodeMap) (s : State), (∃ t, stepWith m s = .next t) ↔ s.status = .running

/-- 40_fetch_execute.md section 1: a step goes to HALTED exactly by HLT, to FAULTED exactly by an error, and stays in
RUNNING otherwise. FAULTED is the spec's own decision D11; the error conditions hold its decisions D5 to D9 for the
bounds and D22 for POP r7. -/
def Obligations.StatusTransitions : Prop :=
  State.reset.status = .running ∧
  ∀ (m : OpcodeMap) (s t : State), stepWith m s = .next t →
    (t.status = .halted ↔ fetch m s = .ok .hlt) ∧
    (t.status = .faulted ↔ firstError m s ≠ none) ∧
    (t.status = .running ↔ firstError m s = none ∧ fetch m s ≠ .ok .hlt)

/-- 40_fetch_execute.md section 4 and 60_exceptions.md section 2 (the spec's own decision D10): a step that ends in
FAULTED changes nothing but status and the fault record, and the record holds the pc of the faulting instruction. -/
def Obligations.ErrorsArePrecise : Prop :=
  ∀ (m : OpcodeMap) (s t : State), stepWith m s = .next t → t.status = .faulted →
    t.regs = s.regs ∧ t.mem = s.mem ∧ t.pc = s.pc ∧ t.out = s.out ∧ t.fault.pc = s.pc

/-- 40_fetch_execute.md sections 4 and 6 and 00_scope.md section 5: in RUNNING, the step (pseudocode that runs top to
bottom and discards its writes when it raises) is the same as making every check first and then committing the effect
with no check left in it. The spec's own decisions in it: D12 for the order of the checks, D5 to D9 for the bounds
that they check, D10 for the discarded writes, D11 for what the error writes, D22 for r7 in PUSH, POP and CALL. -/
def Obligations.StepIsChecksThenCommit : Prop :=
  ∀ (m : OpcodeMap) (s : State), s.status = .running →
    stepWith m s =
      .next (match firstError m s with
        | some e => s.faultedWith e.kind e.info
        | none => uncheckedEffect m s)

/-- R76 and R113: the register operands are checked in byte order, and the first outside 0 to 7 raises InvalidRegister
with that byte and no effect; an instruction whose register operands are 0 to 7 never raises it, whatever LDI's value
byte is. -/
def Obligations.RegisterOperandsCheckedInOrder : Prop :=
  (∀ (i : Instr) (s : State) (b : Byte), i.registerOperands.find? (fun b => !namesRegister b) = some b →
    exec i s = .next (s.faultedWith .invalidRegister b)) ∧
  ∀ (i : Instr) (s t : State), i.wellFormed = true → s.status = .running → exec i s = .next t →
    t.status = .faulted → t.fault.kind ≠ .invalidRegister

/-- 40_fetch_execute.md section 3 (the spec's own decision D5): an advancing instruction whose pc + width is above 255
raises OOB_FALLTHROUGH (0x01) with no effect, where its operands and its own stack check pass, which for POP r7 looks
at the popped byte (the spec's own decision D22); HLT, CALL and RET never raise it. -/
def Obligations.FallThroughPastEndRaises : Prop :=
  (∀ (i : Instr) (s : State), i.advances = true → i.access = .none → i.wellFormed = true →
    255 < s.pc.toNat + i.width → exec i s = .next (s.faultedWith .outOfBoundsAddress 0x01)) ∧
  (∀ (r : RegIdx) (s : State), s.sp ≠ 0 → 255 < s.pc.toNat + 2 →
    exec (.push (regByte r)) s = .next (s.faultedWith .outOfBoundsAddress 0x01)) ∧
  (∀ (r : RegIdx) (s : State), (if r = 7 then s.byteAt s.sp.toNat else s.sp) ≠ 0xFF → 255 < s.pc.toNat + 2 →
    exec (.pop (regByte r)) s = .next (s.faultedWith .outOfBoundsAddress 0x01)) ∧
  ∀ (i : Instr) (s t : State), i.advances = false → s.status = .running → exec i s = .next t →
    ¬ (t.status = .faulted ∧ t.fault.kind = .outOfBoundsAddress ∧ t.fault.info = 0x01)

/-- 43_stack.md section 1 (the spec's own decision D7): a push at SP = 0 raises OOB_STACK_LOW (0x02) with no effect,
also where the CALL's return address would not fit; at SP = 1 a push writes address 0. There PUSH r7 stores the new
SP, 0 (43_stack.md section 3, the spec's own decision D22). -/
def Obligations.PushAtZeroRaises : Prop :=
  ∀ (r : RegIdx) (s : State),
    (s.sp = 0 → exec (.push (regByte r)) s = .next (s.faultedWith .outOfBoundsAddress 0x02) ∧
      exec (.call (regByte r)) s = .next (s.faultedWith .outOfBoundsAddress 0x02)) ∧
    (s.sp = 1 → s.pc.toNat + 2 ≤ 255 → ∃ t, exec (.push (regByte r)) s = .next t ∧ t.sp = 0 ∧
      t.byteAt 0 = if r = 7 then 0 else s.reg r)

/-- 43_stack.md section 1 (the spec's own decision D8): a pop whose incremented SP would be 256 raises OOB_STACK_HIGH
(0x03) with no effect. For RET and for POP of another register than 7 this is SP = 0xFF; for POP r7 it is a popped
byte 0xFF, and the read at SP = 0xFF is legal. -/
def Obligations.PopPastTopRaises : Prop :=
  ∀ s : State,
    (s.sp = 0xFF → exec .ret s = .next (s.faultedWith .outOfBoundsAddress 0x03) ∧
      ∀ r : RegIdx, r ≠ 7 → exec (.pop (regByte r)) s = .next (s.faultedWith .outOfBoundsAddress 0x03)) ∧
    (s.byteAt s.sp.toNat = 0xFF → exec (.pop (regByte 7)) s = .next (s.faultedWith .outOfBoundsAddress 0x03)) ∧
    (s.sp = 0xFF → s.byteAt 0xFF ≠ 0xFF → s.pc.toNat + 2 ≤ 255 →
      ∃ t, exec (.pop (regByte 7)) s = .next t ∧ t.sp = s.byteAt 0xFF + 1)

/-- 44_call_return.md section 2 (the spec's own decision D9): a CALL whose return address pc + 2 would be 256 or more
raises OOB_RETADDR (0x04) with no effect, where SP is not 0; the address is not truncated. -/
def Obligations.CallReturnAddressBound : Prop :=
  ∀ (r : RegIdx) (s : State), s.sp ≠ 0 → 255 < s.pc.toNat + 2 →
    exec (.call (regByte r)) s = .next (s.faultedWith .outOfBoundsAddress 0x04)

/-- 42_alu.md section 1: no step ends in UnsupportedAluOperation, because the decoder hands the ALU only the tags of
ADD and MUL. -/
def Obligations.AluErrorIsUnreachable : Prop :=
  ∀ (m : OpcodeMap) (s t : State), stepWith m s = .next t → t.status = .faulted →
    t.fault.kind ≠ .unsupportedAluOperation

/-! ## What each instruction does, and its frame -/

/-- R82: HLT sets HALTED and changes nothing else, in every state; a step at an HLT byte cannot fail, at 0xFF neither.
-/
def Obligations.HltHalts : Prop :=
  (∀ s : State, exec .hlt s = .next { s with status := .halted }) ∧
  ∀ (m : OpcodeMap) (s : State), s.status = .running → s.byteAt s.pc.toNat = m.hlt →
    stepWith m s = .next { s with status := .halted }

/-- 41_register_io.md, LDI: wherever its fall-through address is inside memory, LDI completes for every register, r7
among them, and every value byte. -/
def Obligations.LdiLoadsImmediate : Prop :=
  ∀ (r : RegIdx) (v : Byte) (s : State), s.pc.toNat + 3 ≤ 255 →
    ∃ t, exec (.ldi (regByte r) v) s = .next t ∧ t.pc = s.pc + 3 ∧
      (∀ j, t.reg j = if j = r then v else s.reg j) ∧ t.status = s.status ∧ t.fault = s.fault ∧ t.out = s.out ∧
      ∀ a, t.byteAt a = s.byteAt a

/-- 41_register_io.md, PRN: it appends the register's value to the output stream and changes nothing else but pc. -/
def Obligations.PrnEmitsRegister : Prop :=
  ∀ (r : RegIdx) (s : State), s.pc.toNat + 2 ≤ 255 →
    ∃ t, exec (.prn (regByte r)) s = .next t ∧ t.pc = s.pc + 2 ∧ t.out = s.out ++ [s.reg r] ∧
      (∀ j, t.reg j = s.reg j) ∧ t.status = s.status ∧ t.fault = s.fault ∧ ∀ a, t.byteAt a = s.byteAt a

/-- 42_alu.md, ADD: the sum modulo 256, both operands read before the write, also where they are one register. -/
def Obligations.AddAddsModulo256 : Prop :=
  ∀ (ra rb : RegIdx) (s : State), s.pc.toNat + 3 ≤ 255 →
    ∃ t, exec (.add (regByte ra) (regByte rb)) s = .next t ∧ t.pc = s.pc + 3 ∧
      (t.reg ra).toNat = ((s.reg ra).toNat + (s.reg rb).toNat) % 256 ∧
      (∀ j, j ≠ ra → t.reg j = s.reg j) ∧ t.status = s.status ∧ t.fault = s.fault ∧ t.out = s.out ∧
      ∀ a, t.byteAt a = s.byteAt a

/-- 42_alu.md, MUL: the product modulo 256, both operands read before the write, also where they are one register. -/
def Obligations.MulMultipliesModulo256 : Prop :=
  ∀ (ra rb : RegIdx) (s : State), s.pc.toNat + 3 ≤ 255 →
    ∃ t, exec (.mul (regByte ra) (regByte rb)) s = .next t ∧ t.pc = s.pc + 3 ∧
      (t.reg ra).toNat = ((s.reg ra).toNat * (s.reg rb).toNat) % 256 ∧
      (∀ j, j ≠ ra → t.reg j = s.reg j) ∧ t.status = s.status ∧ t.fault = s.fault ∧ t.out = s.out ∧
      ∀ a, t.byteAt a = s.byteAt a

/-- 43_stack.md, PUSH: SP goes down by one and the byte at the new SP becomes the register's value, which for r7 is
the new SP (the spec's own decision D22). -/
def Obligations.PushStoresBelowSp : Prop :=
  ∀ (r : RegIdx) (s : State), s.sp ≠ 0 → s.pc.toNat + 2 ≤ 255 →
    ∃ t, exec (.push (regByte r)) s = .next t ∧ t.pc = s.pc + 2 ∧
      (∀ j, t.reg j = if j = 7 then s.sp - 1 else s.reg j) ∧
      t.byteAt (s.sp - 1).toNat = (if r = 7 then s.sp - 1 else s.reg r) ∧
      (∀ a, a ≠ (s.sp - 1).toNat → t.byteAt a = s.byteAt a) ∧
      t.status = s.status ∧ t.fault = s.fault ∧ t.out = s.out

/-- 43_stack.md, POP: the register takes the byte at SP and SP goes up by one; POP r7 leaves SP at the popped byte
plus one (the spec's own decision D22). Memory is not written. -/
def Obligations.PopLoadsFromSp : Prop :=
  ∀ (r : RegIdx) (s : State), (if r = 7 then s.byteAt s.sp.toNat else s.sp) ≠ 0xFF → s.pc.toNat + 2 ≤ 255 →
    ∃ t, exec (.pop (regByte r)) s = .next t ∧ t.pc = s.pc + 2 ∧
      t.sp = (if r = 7 then s.byteAt s.sp.toNat else s.sp) + 1 ∧
      (r ≠ 7 → t.reg r = s.byteAt s.sp.toNat) ∧ (∀ j, j ≠ r → j ≠ 7 → t.reg j = s.reg j) ∧
      t.status = s.status ∧ t.fault = s.fault ∧ t.out = s.out ∧ ∀ a, t.byteAt a = s.byteAt a

/-- 44_call_return.md, CALL: push pc + 2 and go to the register's value, which for r7 is the new SP (the spec's own
decision D22). -/
def Obligations.CallPushesReturnAddress : Prop :=
  ∀ (r : RegIdx) (s : State), s.sp ≠ 0 → s.pc.toNat + 2 ≤ 255 →
    ∃ t, exec (.call (regByte r)) s = .next t ∧ t.pc = (if r = 7 then s.sp - 1 else s.reg r) ∧
      (∀ j, t.reg j = if j = 7 then s.sp - 1 else s.reg j) ∧
      t.byteAt (s.sp - 1).toNat = s.pc + 2 ∧ (∀ a, a ≠ (s.sp - 1).toNat → t.byteAt a = s.byteAt a) ∧
      t.status = s.status ∧ t.fault = s.fault ∧ t.out = s.out

/-- 44_call_return.md, RET: go to the byte at SP, and SP goes up by one. It completes at every pc, and on an empty
stack too (the spec's own decision D17). Memory is not written. -/
def Obligations.RetPopsReturnAddress : Prop :=
  ∀ s : State, s.sp ≠ 0xFF →
    ∃ t, exec .ret s = .next t ∧ t.pc = s.byteAt s.sp.toNat ∧
      (∀ j, t.reg j = if j = 7 then s.sp + 1 else s.reg j) ∧
      t.status = s.status ∧ t.fault = s.fault ∧ t.out = s.out ∧ ∀ a, t.byteAt a = s.byteAt a

/-- R89: the ALU reads both operands, computes modulo 256 and writes the destination alone; another tag raises
UnsupportedAluOperation with the tag. -/
def Obligations.AluAppliesOperation : Prop :=
  ∀ (d r : RegIdx) (s : State),
    (∃ t, alu .add d r s = .ok t ∧ (t.reg d).toNat = ((s.reg d).toNat + (s.reg r).toNat) % 256 ∧
      (∀ j, j ≠ d → t.reg j = s.reg j) ∧ t.pc = s.pc ∧ t.mem = s.mem ∧ t.out = s.out ∧ t.status = s.status ∧
      t.fault = s.fault) ∧
    (∃ t, alu .mul d r s = .ok t ∧ (t.reg d).toNat = ((s.reg d).toNat * (s.reg r).toNat) % 256 ∧
      (∀ j, j ≠ d → t.reg j = s.reg j) ∧ t.pc = s.pc ∧ t.mem = s.mem ∧ t.out = s.out ∧ t.status = s.status ∧
      t.fault = s.fault) ∧
    ∀ tag : Byte, alu (.other tag) d r s = .error (.unsupportedAluOperation tag)

/-! ## Rules over all instructions -/

/-- 40_fetch_execute.md section 3 and 44_call_return.md sections 2 and 3: the advancing instructions add their width,
with no wrap; CALL and RET set pc themselves, to the register's value and to the byte at SP, and nothing is added;
CALL r7 goes to the decremented SP (the spec's own decision D22); HLT leaves pc; a step that raises leaves pc. -/
def Obligations.PcUpdate : Prop :=
  ∀ (m : OpcodeMap) (s t : State), stepWith m s = .next t →
    (t.status = .faulted → t.pc = s.pc) ∧
    ∀ i : Instr, fetch m s = .ok i → t.status ≠ .faulted →
      (i.advances = true → t.pc.toNat = s.pc.toNat + i.width) ∧
      (i = .hlt → t.pc = s.pc) ∧
      (∀ r : RegIdx, i = .call (regByte r) → t.pc = if r = 7 then s.sp - 1 else s.reg r) ∧
      (i = .ret → t.pc = s.byteAt s.sp.toNat)

/-- 10_state.md section 1: which registers each instruction reads and writes, and that any index 0 to 7 may be named.
A register that changes is one that the instruction writes. A register it neither reads nor writes has no influence
and is kept. A register it writes without reading has no influence on an instruction that completes. -/
def Obligations.RegistersReadAndWritten : Prop :=
  (∀ (i : Instr) (s t : State) (j : RegIdx), exec i s = .next t → t.reg j ≠ s.reg j →
    regByte j ∈ i.regsWritten) ∧
  (∀ (i : Instr) (s t : State) (j : RegIdx) (v : Byte), regByte j ∉ i.regsRead → regByte j ∉ i.regsWritten →
    exec i s = .next t → exec i (s.setReg j v) = .next (t.setReg j v)) ∧
  (∀ (i : Instr) (s t : State) (j : RegIdx) (v : Byte), regByte j ∉ i.regsRead → regByte j ∈ i.regsWritten →
    s.status = .running → exec i s = .next t → t.status ≠ .faulted → exec i (s.setReg j v) = .next t) ∧
  ∀ (i : Instr) (s t : State), (∀ b ∈ i.registerOperands, ∃ r : RegIdx, b = regByte r) → s.status = .running →
    exec i s = .next t → t.status = .faulted → t.fault.kind ≠ .invalidRegister

/-- 20_memory.md section 1: which operations reach memory. The fetch reads at most the bytes at pc, pc+1 and pc+2 that
exist. A step changes a byte only by PUSH or CALL, at the decremented SP. What an instruction does to everything but
memory depends on no memory byte but, for POP and RET, the byte at SP, and so do the byte written and its place. -/
def Obligations.MemoryAccessedOnlyAsListed : Prop :=
  (∀ (m : OpcodeMap) (s t : State), t.pc = s.pc →
    (∀ k, k < 3 → s.pc.toNat + k ≤ 255 → t.codeByte k = s.codeByte k) → fetch m t = fetch m s) ∧
  (∀ (m : OpcodeMap) (s t : State) (a : Nat), stepWith m s = .next t → t.byteAt a ≠ s.byteAt a →
    a = (s.sp - 1).toNat ∧ s.sp ≠ 0 ∧ ∃ r : RegIdx, fetch m s = .ok (.push (regByte r)) ∨
      fetch m s = .ok (.call (regByte r))) ∧
  ∀ (i : Instr) (s t : State) (mem : Memory), exec i s = .next t →
    (i.access = .readAtSp → Memory.read mem s.sp.toNat = s.byteAt s.sp.toNat) →
    ∃ mem', exec i (s.setMem mem) = .next (t.setMem mem') ∧
      ∀ a, (t.byteAt a = s.byteAt a ∧ Memory.read mem' a = Memory.read mem a) ∨
        (i.access = .writeBelowSp ∧ a = (s.sp - 1).toNat ∧ Memory.read mem' a = t.byteAt a)

/-- 10_state.md section 3 and 41_register_io.md: a step leaves the output stream as it is, or appends the value of the
register that a PRN names; a PRN that raises nothing appends exactly that. -/
def Obligations.OnlyPrnEmits : Prop :=
  ∀ (m : OpcodeMap) (s t : State), stepWith m s = .next t →
    (t.out ≠ s.out → ∃ r : RegIdx, fetch m s = .ok (.prn (regByte r))) ∧
    ∀ r : RegIdx, fetch m s = .ok (.prn (regByte r)) →
      t.out = if t.status = .faulted then s.out else s.out ++ [s.reg r]

/-- 20_memory.md section 4 and 70_reset_and_hazards.md section 4: a byte that PUSH stores where the next instruction
starts is the opcode that the very next step fetches: the HLT opcode there halts, a byte that is no opcode raises
UnknownOpcode. For PUSH r7 the stored byte is the decremented SP (43_stack.md section 3, the spec's own decision D22).
-/
def Obligations.PushedByteIsFetchedAtOnce : Prop :=
  ∀ (m : OpcodeMap) (r : RegIdx) (s t : State), s.status = .running → s.sp ≠ 0 → s.pc.toNat + 2 ≤ 255 →
    (s.sp - 1).toNat = s.pc.toNat + 2 → exec (.push (regByte r)) s = .next t →
    ∀ b : Byte, (b = if r = 7 then s.sp - 1 else s.reg r) →
      (b = m.hlt → stepWith m t = .next { t with status := .halted }) ∧
      (b ∉ m.values → stepWith m t = .next (t.faultedWith .unknownOpcode b))

/-- 10_state.md section 1 and 43_stack.md section 3 (the spec's own decision D22): PUSH r then POP r2 gives r2 the
value of r and restores SP where neither is 7 or both are; PUSH r7 then POP r2 gives r2 the SP before minus one; PUSH
r then POP r7 leaves SP at x[r] + 1. The pushed byte stays in memory. -/
def Obligations.PushPopRoundTrip : Prop :=
  ∀ (r r2 : RegIdx) (s : State), s.sp ≠ 0 → s.pc.toNat + 4 ≤ 255 → (r ≠ 7 → r2 = 7 → s.reg r ≠ 0xFF) →
    ∃ t u, exec (.push (regByte r)) s = .next t ∧ exec (.pop (regByte r2)) t = .next u ∧
      u.pc = s.pc + 4 ∧
      ((r ≠ 7 ∧ r2 ≠ 7) → u.reg r2 = s.reg r ∧ u.sp = s.sp) ∧
      ((r = 7 ∧ r2 = 7) → u.sp = s.sp) ∧
      ((r = 7 ∧ r2 ≠ 7) → u.reg r2 = s.sp - 1 ∧ u.sp = s.sp) ∧
      ((r ≠ 7 ∧ r2 = 7) → u.sp = s.reg r + 1) ∧
      u.byteAt (s.sp - 1).toNat = if r = 7 then s.sp - 1 else s.reg r

/-- 44_call_return.md section 3: after a CALL that raises nothing, a RET from any state in which SP is what the CALL
left and the byte there is still the return address resumes at the CALL's pc + 2 with SP as it was before the CALL. -/
def Obligations.CallReturnRoundTrip : Prop :=
  ∀ (r : RegIdx) (s : State), s.sp ≠ 0 → s.pc.toNat + 2 ≤ 255 →
    ∃ t, exec (.call (regByte r)) s = .next t ∧
      ∀ u : State, u.sp = t.sp → u.byteAt u.sp.toNat = t.byteAt t.sp.toNat →
        ∃ v, exec .ret u = .next v ∧ v.pc = s.pc + 2 ∧ v.sp = s.sp

/-- 20_memory.md section 1 (the bounds are the spec's own decisions D6 and D7): a cell written reads back, no other
cell changes, every address 0 to 255 can be read and written, and any other address raises. -/
def Obligations.MemoryReadsLastWrite : Prop :=
  ∀ (a : Int) (v : Byte) (s : State),
    (0 ≤ a ∧ a ≤ 255 → (∃ w, memRead a s = .ok w) ∧ ∃ t, memWrite a v s = .ok t ∧ memRead a t = .ok v ∧
      (∀ b : Int, b ≠ a → memRead b t = memRead b s) ∧ t.regs = s.regs ∧ t.pc = s.pc ∧ t.out = s.out) ∧
    (a < 0 ∨ 255 < a → memRead a s = .error (.outOfBounds .fetch) ∧ memWrite a v s = .error (.outOfBounds .stackLow))

/-! ## The invariant and runs -/

/-- Every step keeps the invariant: canonical memory (log entry 4), a FAULTED state's record naming the first error
condition that still holds in it (40_fetch_execute.md section 4; the spec's own decisions D5 to D12, and D22 for POP
r7), an unwritten record otherwise, and a HALTED state's pc at its HLT. -/
def Obligations.StepKeepsInvariant : Prop :=
  ∀ (m : OpcodeMap) (s t : State), s.Inv m → stepWith m s = .next t → t.Inv m

/-- 10_state.md section 5 and 70_reset_and_hazards.md section 1: the invariant holds at reset, in every launch state,
and after the reset input (the spec's own decision D14) where memory was in its canonical form (log entry 4). -/
def Obligations.LaunchMeetsInvariant : Prop :=
  ∀ m : OpcodeMap, State.reset.Inv m ∧
    (∀ image : List Byte, image.length ≤ 256 → ∃ s, launch image = .next s ∧ s.Inv m) ∧
    ∀ s : State, Memory.wf s.mem = true → (applyReset s).Inv m

/-- 70_reset_and_hazards.md section 3 and 00_scope.md section 7: a run has at most one end, in which it stays, and its
output at any time begins with its output at any earlier time. -/
def Obligations.RunHasOneEndAndOutputOnlyGrows : Prop :=
  (∀ (m : OpcodeMap) (s t u : State), EndsIn m s t → EndsIn m s u → t = u) ∧
  ∀ (m : OpcodeMap) (s : State) (n k : Nat), (runWith m n s).out <+: (runWith m (n + k) s).out

/-- 60_exceptions.md sections 1 and 3: the status output (codes: the spec's own decision D11) tells a clean end, an
error and a run not yet ended apart, and the kind output tells the four error kinds apart by the codes 0 to 3 (D11).
The other two outputs (the spec's own decision D4) carry the record's pc and info. A run not yet ended is one in which
a step is enabled (the spec's own decision D13). -/
def Obligations.HostSeesOutcome : Prop :=
  ∀ s : State,
    (s.ports.status = 0b00 ↔ s.outcome = .notYetEnded) ∧ (s.ports.status = 0b01 ↔ s.outcome = .cleanEnd) ∧
    (s.ports.status = 0b10 ↔ ∃ k, s.outcome = .error k) ∧ s.ports.status ≠ 0b11 ∧
    (s.ports.status = 0b10 ∧ s.ports.faultKind = 0 ↔ s.outcome = .error .unknownOpcode) ∧
    (s.ports.status = 0b10 ∧ s.ports.faultKind = 1 ↔ s.outcome = .error .invalidRegister) ∧
    (s.ports.status = 0b10 ∧ s.ports.faultKind = 2 ↔ s.outcome = .error .outOfBoundsAddress) ∧
    (s.ports.status = 0b10 ∧ s.ports.faultKind = 3 ↔ s.outcome = .error .unsupportedAluOperation) ∧
    s.ports.faultPc = s.fault.pc ∧ s.ports.faultInfo = s.fault.info ∧
    ∀ m : OpcodeMap, s.outcome = .notYetEnded ↔ ∃ t, stepWith m s = .next t

/-! ## The assembly syntax -/

/-- 30_encoding.md section 5 (the spec's own decision D20; log entry 9): an instruction can be written exactly where
its register operands are r0 to r7, and the assembler turns what is written, alone or before another instruction and a
semicolon, into the instruction's bytes. -/
def Obligations.AssemblerInvertsListing : Prop :=
  (∀ i : Instr, (∃ text, Assembly.listing i = some text) ↔ i.wellFormed = true) ∧
  (∀ (m : OpcodeMap) (i : Instr) (text : List Char), Assembly.listing i = some text →
    Assembly.assemble m text = some (encode m i)) ∧
  ∀ (m : OpcodeMap) (i j : Instr) (x y : List Char), Assembly.listing i = some x → Assembly.listing j = some y →
    Assembly.assemble m (x ++ [';', ' '] ++ y) = some (encode m i ++ encode m j)
end

