-- ==== Sys2Proof/Laws/Config.lean ====
section
/-! SUPPORT. The named parameters of 00_scope.md R7 are the ones that the model's types and operations have. -/

namespace Sys2Proof.Machine

/-- WORD: a byte, and with it every register, cell and operand, is `Config.wordBits` wide (R8). -/
theorem byte_width : Byte = BitVec Config.wordBits := rfl

/-- ADDR_WIDTH: pc and SP are addresses of memory, one for each cell (R7: derived from MEM_SIZE). -/
theorem addr_width (s : State) : (s.pc.toNat < 2 ^ Config.addrWidth) ∧ 2 ^ Config.addrWidth = Config.memSize :=
  ⟨s.pc.isLt, rfl⟩

/-- NREG: the register indices and the register file have `Config.numRegs` places (R18). -/
theorem register_count : RegIdx = Fin Config.numRegs ∧ RegFile = Vector Byte Config.numRegs := ⟨rfl, rfl⟩

/-- An operand byte names a register exactly when it is below `Config.numRegs` (R22). -/
theorem namesRegister_iff (b : Byte) : namesRegister b = true ↔ b.toNat < Config.numRegs := decide_eq_true_iff

/-- OPERANDS and the instruction length: at most two operand bytes, and one byte more in all (R53). -/
theorem width_eq_length (i : Instr) :
    i.width = Config.instructionLength i.format.operands.length ∧ i.format.operands.length ≤ Config.maxOperands ∧
      i.width ≤ Config.maxLength := by
  cases i <;> exact ⟨rfl, Nat.le_of_ble_eq_true rfl, Nat.le_of_ble_eq_true rfl⟩

/-- ALU operations: the ALU has a result exactly for the tags of `Config.aluOperations`, for all operands (R90). -/
theorem aluResult_isOk_iff (op : AluOp) (a b : Byte) :
    (∃ r, aluResult op a b = .ok r) ↔ op ∈ Config.aluOperations := by
  cases op <;> simp [aluResult, Config.aluOperations]

/-- The decoder hands the ALU no other tag (R90). -/
theorem aluOp_mem {i : Instr} {op : AluOp} (h : i.aluOp = some op) : op ∈ Config.aluOperations := by
  cases i <;> simp_all [Instr.aluOp, Config.aluOperations, eq_comm]

end Sys2Proof.Machine
end

