-- ==== Sys2Proof/Laws/Memory.lean ====
section
/-! SUPPORT. Memory: a read gives the last write, and every operation keeps the canonical form. -/

namespace Sys2Proof.Machine.Memory

/-! ## Reads -/

@[simp] theorem read_nil (a : Nat) : Memory.read [] a = Config.memReset := rfl

theorem read_cons (b : Nat) (v : Byte) (rest : Memory) (a : Nat) :
    Memory.read ((b, v) :: rest) a = if b = a then v else Memory.read rest a := rfl

theorem read_erase (m : Memory) (a b : Nat) :
    Memory.read (Memory.erase a m) b = if b = a then Config.memReset else Memory.read m b := by
  induction m with
  | nil => simp [Memory.erase]
  | cons cell rest ih =>
    obtain ⟨c, w⟩ := cell
    by_cases hca : c = a
    · subst hca
      rw [Memory.erase, if_pos rfl, ih]
      by_cases hb : b = c
      · simp [hb]
      · rw [if_neg hb, if_neg hb, read_cons, if_neg (Ne.symm hb)]
    · rw [Memory.erase, if_neg hca, read_cons, read_cons, ih]
      by_cases hcb : c = b
      · subst hcb; simp [hca]
      · simp [hcb]

theorem read_insert_other (m : Memory) (a b : Nat) (v : Byte) (h : b ≠ a) :
    Memory.read (Memory.insert a v m) b = Memory.read m b := by
  induction m with
  | nil => simp [Memory.insert, read_cons, Ne.symm h]
  | cons cell rest ih =>
    obtain ⟨c, w⟩ := cell
    rw [Memory.insert]
    split
    · rw [read_cons, if_neg (Ne.symm h)]
    · rw [read_cons, read_cons, ih]

/-- An address is unlisted. -/
def Unlisted (a : Nat) (m : Memory) : Prop := ∀ cell ∈ m, cell.1 ≠ a

theorem unlisted_erase (m : Memory) (a : Nat) : Unlisted a (Memory.erase a m) := by
  induction m with
  | nil => simp [Unlisted, Memory.erase]
  | cons cell rest ih =>
    obtain ⟨c, w⟩ := cell
    rw [Memory.erase]
    split
    · exact ih
    · rename_i hca
      intro d hd
      rcases List.mem_cons.mp hd with rfl | hd
      · exact hca
      · exact ih d hd

theorem read_insert_same (m : Memory) (a : Nat) (v : Byte) (h : Unlisted a m) :
    Memory.read (Memory.insert a v m) a = v := by
  induction m with
  | nil => simp [Memory.insert, read_cons]
  | cons cell rest ih =>
    obtain ⟨c, w⟩ := cell
    rw [Memory.insert]
    split
    · rw [read_cons, if_pos rfl]
    · rw [read_cons, if_neg (h (c, w) (by simp)), ih fun d hd => h d (by simp [hd])]

/-- A read after a write gives the value written at the address written, and what was there before elsewhere
(20_memory.md R40, R48). It holds of every list, canonical or not. -/
@[simp] theorem read_write (m : Memory) (a b : Nat) (v : Byte) :
    Memory.read (Memory.write m a v) b = if b = a then v else Memory.read m b := by
  rw [Memory.write]
  split
  · rename_i hv
    rw [read_erase, hv]
  · by_cases hb : b = a
    · subst hb
      rw [read_insert_same _ _ _ (unlisted_erase m b), if_pos rfl]
    · rw [read_insert_other _ _ _ _ hb, read_erase, if_neg hb, if_neg hb]

/-- Loading bytes changes exactly the cells from `base` on that exist and that a byte is given for
(70_reset_and_hazards.md R131). -/
theorem read_load (bytes : List Byte) (m : Memory) (base a : Nat) :
    Memory.read (Memory.load m base bytes) a =
      if base ≤ a ∧ a < base + bytes.length ∧ a < Config.memSize then bytes.getD (a - base) 0
      else Memory.read m a := by
  induction bytes generalizing m base with
  | nil =>
    rw [Memory.load, if_neg]
    simp only [List.length_nil]
    omega
  | cons v rest ih =>
    rw [Memory.load, ih]
    by_cases hlt : base < a
    · have hidx : a - base = (a - (base + 1)) + 1 := by omega
      have hne : a ≠ base := by omega
      have hread : Memory.read (if base < Config.memSize then m.write base v else m) a = Memory.read m a := by
        split <;> simp [hne]
      rw [hread, hidx, List.getD_cons_succ]
      simp only [List.length_cons]
      congr 1
      apply propext
      constructor <;> intro h <;> omega
    · rw [if_neg (by omega)]
      by_cases heq : a = base
      · subst heq
        by_cases hmem : a < Config.memSize <;> simp [hmem]
      · have hbelow : ¬ (base ≤ a ∧ a < base + (v :: rest).length ∧ a < Config.memSize) := by omega
        rw [if_neg hbelow]
        split <;> simp [heq]

/-! ## The canonical form -/

theorem wfFrom_mono {lo lo' : Nat} {m : Memory} (h : Memory.wfFrom lo m = true) (hlo : lo' ≤ lo) :
    Memory.wfFrom lo' m = true := by
  cases m with
  | nil => rfl
  | cons cell rest =>
    simp only [Memory.wfFrom, Bool.and_eq_true, decide_eq_true_eq] at h ⊢
    exact ⟨⟨⟨by omega, h.1.1.2⟩, h.1.2⟩, h.2⟩

theorem wfFrom_erase {lo : Nat} {m : Memory} (a : Nat) (h : Memory.wfFrom lo m = true) :
    Memory.wfFrom lo (Memory.erase a m) = true := by
  induction m generalizing lo with
  | nil => rfl
  | cons cell rest ih =>
    obtain ⟨c, w⟩ := cell
    simp only [Memory.wfFrom, Bool.and_eq_true, decide_eq_true_eq] at h
    obtain ⟨⟨⟨hlo, hsize⟩, hw⟩, hrest⟩ := h
    rw [Memory.erase]
    split
    · exact wfFrom_mono (ih hrest) (by omega)
    · simp only [Memory.wfFrom, Bool.and_eq_true, decide_eq_true_eq]
      exact ⟨⟨⟨hlo, hsize⟩, hw⟩, ih hrest⟩

theorem wfFrom_insert {lo : Nat} {m : Memory} {a : Nat} {v : Byte} (h : Memory.wfFrom lo m = true) (hlo : lo ≤ a)
    (ha : a < Config.memSize) (hv : v ≠ Config.memReset) (hun : Unlisted a m) :
    Memory.wfFrom lo (Memory.insert a v m) = true := by
  induction m generalizing lo with
  | nil =>
    simp only [Memory.insert, Memory.wfFrom, Bool.and_eq_true, decide_eq_true_eq]
    exact ⟨⟨⟨hlo, ha⟩, hv⟩, trivial⟩
  | cons cell rest ih =>
    obtain ⟨c, w⟩ := cell
    have hne : c ≠ a := hun (c, w) (by simp)
    simp only [Memory.wfFrom, Bool.and_eq_true, decide_eq_true_eq] at h
    obtain ⟨⟨⟨hloc, hsize⟩, hw⟩, hrest⟩ := h
    rw [Memory.insert]
    split
    · simp only [Memory.wfFrom, Bool.and_eq_true, decide_eq_true_eq]
      exact ⟨⟨⟨hlo, ha⟩, hv⟩, ⟨⟨by omega, hsize⟩, hw⟩, hrest⟩
    · simp only [Memory.wfFrom, Bool.and_eq_true, decide_eq_true_eq]
      exact ⟨⟨⟨hloc, hsize⟩, hw⟩, ih hrest (by omega) fun d hd => hun d (by simp [hd])⟩

/-- A write inside memory keeps the canonical form. -/
theorem wf_write {m : Memory} {a : Nat} (v : Byte) (h : Memory.wf m = true) (ha : a < Config.memSize) :
    Memory.wf (Memory.write m a v) = true := by
  rw [Memory.write]
  split
  · exact wfFrom_erase a h
  · exact wfFrom_insert (wfFrom_erase a h) (by omega) ha ‹_› (unlisted_erase m a)

/-- Loading bytes keeps the canonical form. -/
theorem wf_load (bytes : List Byte) {m : Memory} (base : Nat) (h : Memory.wf m = true) :
    Memory.wf (Memory.load m base bytes) = true := by
  induction bytes generalizing m base with
  | nil => exact h
  | cons v rest ih =>
    rw [Memory.load]
    apply ih
    split
    · exact wf_write v h ‹_›
    · exact h

/-- Memory at reset is canonical. -/
theorem wf_reset : Memory.wf State.reset.mem = true := rfl

theorem read_below {lo : Nat} {m : Memory} (h : Memory.wfFrom lo m = true) {a : Nat} (ha : a < lo) :
    Memory.read m a = Config.memReset := by
  induction m generalizing lo with
  | nil => rfl
  | cons cell rest ih =>
    simp only [Memory.wfFrom, Bool.and_eq_true, decide_eq_true_eq] at h
    rw [read_cons, if_neg (by omega)]
    exact ih h.2 (by omega)

theorem ext_from {lo : Nat} {m m' : Memory} (h : Memory.wfFrom lo m = true) (h' : Memory.wfFrom lo m' = true)
    (heq : ∀ a, Memory.read m a = Memory.read m' a) : m = m' := by
  induction m generalizing lo m' with
  | nil =>
    cases m' with
    | nil => rfl
    | cons cell' rest' =>
      simp only [Memory.wfFrom, Bool.and_eq_true, decide_eq_true_eq] at h'
      have hc' := heq cell'.1
      rw [read_cons, if_pos rfl] at hc'
      exact absurd hc'.symm h'.1.2
  | cons cell rest ih =>
    simp only [Memory.wfFrom, Bool.and_eq_true, decide_eq_true_eq] at h
    cases m' with
    | nil =>
      have hc := heq cell.1
      rw [read_cons, if_pos rfl] at hc
      exact absurd hc h.1.2
    | cons cell' rest' =>
      simp only [Memory.wfFrom, Bool.and_eq_true, decide_eq_true_eq] at h'
      have hc := heq cell.1
      have hc' := heq cell'.1
      rw [read_cons, read_cons, if_pos rfl] at hc
      rw [read_cons, read_cons, if_pos rfl] at hc'
      have hfst : cell.1 = cell'.1 := by
        by_contra hne
        rcases Nat.lt_or_gt_of_ne hne with hlt | hlt
        · rw [if_neg (Ne.symm hne), read_below h'.2 (by omega)] at hc
          exact h.1.2 hc
        · rw [if_neg hne, read_below h.2 (by omega)] at hc'
          exact h'.1.2 hc'.symm
      rw [if_pos hfst.symm] at hc
      have hcell : cell = cell' := Prod.ext hfst hc
      subst hcell
      congr 1
      refine ih h.2 h'.2 fun a => ?_
      by_cases ha : cell.1 = a
      · subst ha
        rw [read_below h.2 (by omega), read_below h'.2 (by omega)]
      · have := heq a
        rwa [read_cons, read_cons, if_neg ha, if_neg ha] at this

/-- Canonical memories that read alike are the same list (log entry 4). -/
theorem ext {m m' : Memory} (h : Memory.wf m = true) (h' : Memory.wf m' = true)
    (heq : ∀ a, Memory.read m a = Memory.read m' a) : m = m' :=
  ext_from h h' heq

/-- Writing the value that a cell holds changes nothing (20_memory.md R44). -/
theorem write_read_self {m : Memory} {a : Nat} (h : Memory.wf m = true) (ha : a < Config.memSize) :
    Memory.write m a (Memory.read m a) = m := by
  refine ext (wf_write _ h ha) h fun b => ?_
  rw [read_write]
  split
  · rename_i hb; rw [hb]
  · rfl

end Sys2Proof.Machine.Memory
end

