-- ==== Sys2Proof/Laws/State.lean ====
section
/-! SUPPORT. One lemma for each field and each update of the state. -/

namespace Sys2Proof.Machine

variable (s : State) (r j : RegIdx) (v : Byte) (st : Status) (e : Raise)

/-! ## x[r] <- v -/

@[simp] theorem State.setReg_pc : (s.setReg r v).pc = s.pc := rfl
@[simp] theorem State.setReg_status : (s.setReg r v).status = s.status := rfl
@[simp] theorem State.setReg_fault : (s.setReg r v).fault = s.fault := rfl
@[simp] theorem State.setReg_out : (s.setReg r v).out = s.out := rfl
@[simp] theorem State.setReg_mem : (s.setReg r v).mem = s.mem := rfl

/-- A register reads back what was last written to it, and no other register changes (10_state.md R23). -/
@[simp] theorem State.setReg_reg : (s.setReg r v).reg j = if j = r then v else s.reg j := by
  simp only [State.setReg, State.reg, Fin.getElem_fin, Vector.getElem_set, Fin.ext_iff, eq_comm]

@[simp] theorem State.setReg_setReg (w : Byte) : (s.setReg r v).setReg r w = s.setReg r w := by
  simp [State.setReg]

theorem State.setReg_comm (w : Byte) (h : r ≠ j) :
    (s.setReg r v).setReg j w = (s.setReg j w).setReg r v := by
  have hval : r.val ≠ j.val := fun hrj => h (Fin.ext hrj)
  simp only [State.setReg]
  rw [Vector.set_comm _ _ hval]

/-! ## SP, the same cell as r7 (10_state.md R20) -/

theorem State.sp_eq_reg : s.sp = s.reg 7 := rfl
theorem State.setSp_eq_setReg : s.setSp v = s.setReg 7 v := rfl

@[simp] theorem State.setSp_pc : (s.setSp v).pc = s.pc := rfl
@[simp] theorem State.setSp_status : (s.setSp v).status = s.status := rfl
@[simp] theorem State.setSp_fault : (s.setSp v).fault = s.fault := rfl
@[simp] theorem State.setSp_out : (s.setSp v).out = s.out := rfl
@[simp] theorem State.setSp_mem : (s.setSp v).mem = s.mem := rfl

@[simp] theorem State.setSp_reg : (s.setSp v).reg j = if j = 7 then v else s.reg j := by
  rw [State.setSp_eq_setReg, State.setReg_reg]

@[simp] theorem State.setSp_sp : (s.setSp v).sp = v := by
  rw [State.sp_eq_reg, State.setSp_reg, if_pos rfl]

@[simp] theorem State.setReg_sp : (s.setReg r v).sp = if r = 7 then v else s.sp := by
  rw [State.sp_eq_reg, State.setReg_reg, State.sp_eq_reg]
  simp only [eq_comm]

/-! ## pc, out and status -/

@[simp] theorem State.setPc_pc : (s.setPc v).pc = v := rfl
@[simp] theorem State.setPc_regs : (s.setPc v).regs = s.regs := rfl
@[simp] theorem State.setPc_reg : (s.setPc v).reg j = s.reg j := rfl
@[simp] theorem State.setPc_sp : (s.setPc v).sp = s.sp := rfl
@[simp] theorem State.setPc_status : (s.setPc v).status = s.status := rfl
@[simp] theorem State.setPc_fault : (s.setPc v).fault = s.fault := rfl
@[simp] theorem State.setPc_out : (s.setPc v).out = s.out := rfl
@[simp] theorem State.setPc_mem : (s.setPc v).mem = s.mem := rfl

@[simp] theorem State.emit_out : (s.emit v).out = s.out ++ [v] := rfl
@[simp] theorem State.emit_regs : (s.emit v).regs = s.regs := rfl
@[simp] theorem State.emit_reg : (s.emit v).reg j = s.reg j := rfl
@[simp] theorem State.emit_sp : (s.emit v).sp = s.sp := rfl
@[simp] theorem State.emit_pc : (s.emit v).pc = s.pc := rfl
@[simp] theorem State.emit_status : (s.emit v).status = s.status := rfl
@[simp] theorem State.emit_fault : (s.emit v).fault = s.fault := rfl
@[simp] theorem State.emit_mem : (s.emit v).mem = s.mem := rfl

@[simp] theorem State.setStatus_status : (s.setStatus st).status = st := rfl
@[simp] theorem State.setStatus_regs : (s.setStatus st).regs = s.regs := rfl
@[simp] theorem State.setStatus_reg : (s.setStatus st).reg j = s.reg j := rfl
@[simp] theorem State.setStatus_pc : (s.setStatus st).pc = s.pc := rfl
@[simp] theorem State.setStatus_fault : (s.setStatus st).fault = s.fault := rfl
@[simp] theorem State.setStatus_out : (s.setStatus st).out = s.out := rfl
@[simp] theorem State.setStatus_mem : (s.setStatus st).mem = s.mem := rfl

/-! ## Memory replaced -/

variable (m : Memory)

@[simp] theorem State.setMem_mem : (s.setMem m).mem = m := rfl
@[simp] theorem State.setMem_regs : (s.setMem m).regs = s.regs := rfl
@[simp] theorem State.setMem_reg : (s.setMem m).reg j = s.reg j := rfl
@[simp] theorem State.setMem_sp : (s.setMem m).sp = s.sp := rfl
@[simp] theorem State.setMem_pc : (s.setMem m).pc = s.pc := rfl
@[simp] theorem State.setMem_status : (s.setMem m).status = s.status := rfl
@[simp] theorem State.setMem_fault : (s.setMem m).fault = s.fault := rfl
@[simp] theorem State.setMem_out : (s.setMem m).out = s.out := rfl
@[simp] theorem State.setMem_setMem (m' : Memory) : (s.setMem m).setMem m' = s.setMem m' := rfl
theorem State.setMem_setReg : (s.setMem m).setReg r v = (s.setReg r v).setMem m := rfl
theorem State.setMem_setPc : (s.setMem m).setPc v = (s.setPc v).setMem m := rfl

/-! ## The error entry (60_exceptions.md R117) -/

@[simp] theorem takeError_regs : (takeError e s).regs = s.regs := rfl
@[simp] theorem takeError_reg : (takeError e s).reg j = s.reg j := rfl
@[simp] theorem takeError_sp : (takeError e s).sp = s.sp := rfl
@[simp] theorem takeError_pc : (takeError e s).pc = s.pc := rfl
@[simp] theorem takeError_out : (takeError e s).out = s.out := rfl
@[simp] theorem takeError_mem : (takeError e s).mem = s.mem := rfl
@[simp] theorem takeError_status : (takeError e s).status = .faulted := rfl
@[simp] theorem takeError_fault : (takeError e s).fault = { kind := e.kind, pc := s.pc, info := e.info } := rfl

/-! ## The reset input (70_reset_and_hazards.md R130) -/

@[simp] theorem applyReset_mem : (applyReset s).mem = s.mem := rfl
@[simp] theorem applyReset_status : (applyReset s).status = .running := rfl

end Sys2Proof.Machine
end

