-- ==== Sys2Proof/Laws/Ops.lean ====
section
/-! SUPPORT. For each shared operation, what it can answer. -/

namespace Sys2Proof.Machine

/-! ## Memory accesses -/

/-- MemRead inside memory (20_memory.md R38, R39). -/
theorem memRead_inside {a : Int} (s : State) (h0 : 0 ≤ a) (h1 : a ≤ 255) :
    memRead a s = .ok (Memory.read s.mem a.toNat) := by
  rw [memRead, if_neg (by omega)]

/-- MemRead outside memory (R39). -/
theorem memRead_outside {a : Int} (s : State) (h : a < 0 ∨ 255 < a) :
    memRead a s = .error (.outOfBounds .fetch) := by
  rw [memRead, if_pos h]

/-- A read at a byte's address never raises (40_fetch_execute.md R73; SP in 43_stack.md R100). -/
@[simp] theorem memRead_byte (b : Byte) (s : State) : memRead b.toNat s = .ok (Memory.read s.mem b.toNat) := by
  have := b.isLt
  rw [memRead_inside s (by omega) (by omega), Int.toNat_natCast]

/-- MemWrite inside memory changes one cell (20_memory.md R40). -/
theorem memWrite_inside {a : Int} (v : Byte) (s : State) (h0 : 0 ≤ a) (h1 : a ≤ 255) :
    memWrite a v s = .ok (s.setMem (Memory.write s.mem a.toNat v)) := by
  rw [memWrite, if_neg (by omega)]

/-- MemWrite outside memory (R40). -/
theorem memWrite_outside {a : Int} (v : Byte) (s : State) (h : a < 0 ∨ 255 < a) :
    memWrite a v s = .error (.outOfBounds .stackLow) := by
  rw [memWrite, if_pos h]

/-- A write at a byte's address never raises. -/
@[simp] theorem memWrite_byte (b v : Byte) (s : State) :
    memWrite b.toNat v s = .ok (s.setMem (Memory.write s.mem b.toNat v)) := by
  have := b.isLt
  rw [memWrite_inside v s (by omega) (by omega), Int.toNat_natCast]

/-! ## Register operands -/

theorem regByte_toNat (r : RegIdx) : (regByte r).toNat = r.val := by
  have := r.isLt
  simp only [regByte, BitVec.toNat_ofNat]
  omega

@[simp] theorem regByte_inj (r j : RegIdx) : regByte r = regByte j ↔ r = j := by
  constructor
  · intro h
    apply Fin.ext
    rw [← regByte_toNat r, ← regByte_toNat j, h]
  · rintro rfl
    rfl

/-- The byte of an index 0 to 7 names that register (30_encoding.md R60). -/
@[simp] theorem checkReg_regByte (r : RegIdx) : checkReg (regByte r) = .ok r := by
  have h := regByte_toNat r
  have hlt : (regByte r).toNat < Config.numRegs := h ▸ r.isLt
  rw [checkReg, dif_pos hlt]
  congr 1
  exact Fin.ext h

/-- The register check answers the register that the byte is the index of (40_fetch_execute.md R76). -/
theorem checkReg_eq_ok {b : Byte} {r : RegIdx} : checkReg b = .ok r ↔ b = regByte r := by
  constructor
  · intro h
    rw [checkReg] at h
    split at h
    · cases h
      apply BitVec.eq_of_toNat_eq
      rw [regByte_toNat]
    · cases h
  · rintro rfl
    exact checkReg_regByte r

/-- The register check raises InvalidRegister with the byte, exactly for 8 to 255 (R76). -/
theorem checkReg_eq_error {b : Byte} {e : Raise} :
    checkReg b = .error e ↔ 8 ≤ b.toNat ∧ e = .invalidRegister b := by
  rw [checkReg]
  split
  · rename_i hlt
    simp only [reduceCtorEq, false_iff, not_and]
    exact fun hge => absurd hlt (Nat.not_lt.mpr hge)
  · rename_i hlt
    simp only [Except.error.injEq, eq_comm (a := e)]
    exact ⟨fun h => ⟨Nat.not_lt.mp hlt, h⟩, And.right⟩

/-- A byte is the index of a register, or it is 8 to 255. -/
theorem byte_cases (b : Byte) : (∃ r : RegIdx, b = regByte r) ∨ 8 ≤ b.toNat := by
  by_cases h : b.toNat < 8
  · exact .inl ⟨⟨b.toNat, h⟩, BitVec.eq_of_toNat_eq (regByte_toNat ⟨b.toNat, h⟩).symm⟩
  · exact .inr (by omega)

/-- A byte 0 to 7 names a register (R22). -/
@[simp] theorem namesRegister_regByte (r : RegIdx) : namesRegister (regByte r) = true :=
  decide_eq_true ((regByte_toNat r).symm ▸ r.isLt)

/-- A byte 8 to 255 names none (R22). -/
theorem namesRegister_of_ge {b : Byte} (h : 8 ≤ b.toNat) : namesRegister b = false :=
  decide_eq_false (Nat.not_lt.mpr h)

/-- An instruction is well formed when its register operands are the bytes of indices 0 to 7 (R22). -/
theorem wellFormed_iff (i : Instr) :
    i.wellFormed = true ↔ ∀ b ∈ i.registerOperands, ∃ r : RegIdx, b = regByte r := by
  rw [Instr.wellFormed, List.all_eq_true]
  refine forall₂_congr fun b _ => ⟨fun h => ?_, fun ⟨r, hr⟩ => hr ▸ namesRegister_regByte r⟩
  rcases byte_cases b with hr | hge
  · exact hr
  · rw [namesRegister_of_ge hge] at h
    exact absurd h Bool.false_ne_true

/-! ## Bounds of SP and pc -/

/-- 43_stack.md R97. -/
theorem decSp_of_ne {s : State} (h : s.sp ≠ 0) : decSp s = .ok (s.setSp (s.sp - 1)) := by
  rw [decSp, if_neg h]

/-- 43_stack.md R97. -/
theorem decSp_of_eq {s : State} (h : s.sp = 0) : decSp s = .error (.outOfBounds .stackLow) := by
  rw [decSp, if_pos h]

/-- 43_stack.md R98. -/
theorem incSp_of_ne {s : State} (h : s.sp ≠ 0xFF) : incSp s = .ok (s.setSp (s.sp + 1)) := by
  rw [incSp, if_neg]
  intro hgt
  apply h
  apply BitVec.eq_of_toNat_eq
  have := s.sp.isLt
  have h255 : (0xFF : Byte).toNat = 255 := rfl
  omega

/-- 43_stack.md R98. -/
theorem incSp_of_eq {s : State} (h : s.sp = 0xFF) : incSp s = .error (.outOfBounds .stackHigh) := by
  rw [incSp, if_pos]
  rw [h]
  decide

/-- 44_call_return.md R106. -/
theorem returnAddress_of_le {s : State} (h : s.pc.toNat + 2 ≤ 255) : returnAddress s = .ok (s.pc + 2) := by
  rw [returnAddress, if_neg (by omega)]

/-- 44_call_return.md R106. -/
theorem returnAddress_of_gt {s : State} (h : 255 < s.pc.toNat + 2) :
    returnAddress s = .error (.outOfBounds .retAddr) := by
  rw [returnAddress, if_pos h]

/-- 40_fetch_execute.md R78 case (a). -/
theorem advance_of_le {w : Nat} {s : State} (h : s.pc.toNat + w ≤ 255) :
    advance w s = .ok (s.setPc (s.pc + BitVec.ofNat 8 w)) := by
  rw [advance, if_neg (by omega)]

/-- 40_fetch_execute.md R79. -/
theorem advance_of_gt {w : Nat} {s : State} (h : 255 < s.pc.toNat + w) :
    advance w s = .error (.outOfBounds .fallthrough) := by
  rw [advance, if_pos h]

/-- What the default advance can answer. -/
theorem advance_cases (w : Nat) (s : State) :
    (s.pc.toNat + w ≤ 255 ∧ advance w s = .ok (s.setPc (s.pc + BitVec.ofNat 8 w))) ∨
    (255 < s.pc.toNat + w ∧ advance w s = .error (.outOfBounds .fallthrough)) := by
  by_cases h : s.pc.toNat + w ≤ 255
  · exact .inl ⟨h, advance_of_le h⟩
  · exact .inr ⟨by omega, advance_of_gt (by omega)⟩

/-! ## The ALU -/

@[simp] theorem alu_add (d r : RegIdx) (s : State) : alu .add d r s = .ok (s.setReg d (s.reg d + s.reg r)) := rfl
@[simp] theorem alu_mul (d r : RegIdx) (s : State) : alu .mul d r s = .ok (s.setReg d (s.reg d * s.reg r)) := rfl
@[simp] theorem alu_other (tag : Byte) (d r : RegIdx) (s : State) :
    alu (.other tag) d r s = .error (.unsupportedAluOperation tag) := rfl

/-! ## The end of a step -/

@[simp] theorem commit_ok (s t : State) : commit s (.ok t) = .next t := rfl
@[simp] theorem commit_error (s : State) (e : Raise) : commit s (.error e) = .next (takeError e s) := rfl

/-- A step that gets to its end answers a next state, whatever happened (60_exceptions.md R117). -/
theorem commit_next (s : State) (r : Except Raise State) : ∃ t, commit s r = .next t := by
  cases r with
  | ok t => exact ⟨t, rfl⟩
  | error e => exact ⟨takeError e s, rfl⟩

/-! ## The fetch -/

/-- Where every operand byte that the width needs is supplied, the decoder gives the instruction whose encoding the
bytes are (30_encoding.md R67). -/
theorem decodeWith_opcode {ε : Type} (m : OpcodeMap) (unknown : Byte → ε) (operand : Nat → Except ε Byte) (i : Instr)
    (h : ∀ k, 1 ≤ k → k < i.width → ∃ b, operand k = .ok b ∧ (encode m i)[k]? = some b) :
    decodeWith m unknown operand (i.opcode m) = .ok i := by
  have hd := m.distinct
  simp only [List.nodup_cons, List.mem_cons, List.not_mem_nil, or_false, not_or] at hd
  obtain ⟨h1, h2, h3, h4, h5, h6, h7, h8, -⟩ := hd
  cases i <;>
    simp only [Instr.opcode, Instr.width, Instr.format, Format.width] at h ⊢ <;>
    simp only [decodeWith, if_true, if_false, h1, h2, h3, h4, h5, h6, h7, h8, eq_comm (a := m.ldi),
      eq_comm (a := m.prn), eq_comm (a := m.add), eq_comm (a := m.mul), eq_comm (a := m.push), eq_comm (a := m.pop),
      eq_comm (a := m.call), eq_comm (a := m.ret)]
  all_goals first
    | rfl
    | (obtain ⟨b1, hb1, he1⟩ := h 1 (by omega) (by omega)
       simp only [encode, List.getElem?_cons_succ, List.getElem?_cons_zero, Option.some.injEq] at he1
       subst he1
       rw [hb1]
       first
       | rfl
       | (obtain ⟨b2, hb2, he2⟩ := h 2 (by omega) (by omega)
          simp only [encode, List.getElem?_cons_succ, List.getElem?_cons_zero, Option.some.injEq] at he2
          subst he2
          rw [hb2]
          rfl))

end Sys2Proof.Machine
end

