-- ==== Sys2Proof/Laws/Exec.lean ====
section
/-! SUPPORT. What each instruction answers, as one equation for register operands 0 to 7 and one for the first operand
outside them, so that later proofs cite these and do not unfold the meanings. -/

namespace Sys2Proof.Machine

variable (s : State)

/-- The end of an advancing instruction whose own writes leave pc (40_fetch_execute.md R78, R79). -/
theorem commit_advance {s t : State} (w : Nat) (ht : t.pc = s.pc) :
    commit s (advance w t) =
      if s.pc.toNat + w ≤ 255 then .next (t.setPc (s.pc + BitVec.ofNat 8 w))
      else .next (takeError (.outOfBounds .fallthrough) s) := by
  split
  · rw [advance_of_le (by rw [ht]; assumption), ht]
    rfl
  · rw [advance_of_gt (by rw [ht]; omega)]
    rfl

/-- The register check of a byte 8 to 255 (R76). -/
theorem checkReg_of_ge {b : Byte} (h : 8 ≤ b.toNat) : checkReg b = .error (.invalidRegister b) :=
  checkReg_eq_error.2 ⟨h, rfl⟩

theorem exec_hlt : exec .hlt s = .next (s.setStatus .halted) := rfl

theorem exec_ldi (r : RegIdx) (v : Byte) :
    exec (.ldi (regByte r) v) s =
      if s.pc.toNat + 3 ≤ 255 then .next ((s.setReg r v).setPc (s.pc + 3))
      else .next (takeError (.outOfBounds .fallthrough) s) := by
  simp only [exec, execLdi, checkReg_regByte]
  exact commit_advance (t := s.setReg r v) 3 rfl

theorem exec_ldi_invalid {b : Byte} (v : Byte) (h : 8 ≤ b.toNat) :
    exec (.ldi b v) s = .next (takeError (.invalidRegister b) s) := by
  simp only [exec, execLdi, checkReg_of_ge h]
  rfl

theorem exec_prn (r : RegIdx) :
    exec (.prn (regByte r)) s =
      if s.pc.toNat + 2 ≤ 255 then .next ((s.emit (s.reg r)).setPc (s.pc + 2))
      else .next (takeError (.outOfBounds .fallthrough) s) := by
  simp only [exec, execPrn, checkReg_regByte]
  exact commit_advance (t := s.emit _) 2 rfl

theorem exec_prn_invalid {b : Byte} (h : 8 ≤ b.toNat) :
    exec (.prn b) s = .next (takeError (.invalidRegister b) s) := by
  simp only [exec, execPrn, checkReg_of_ge h]
  rfl

theorem exec_add (a b : RegIdx) :
    exec (.add (regByte a) (regByte b)) s =
      if s.pc.toNat + 3 ≤ 255 then .next ((s.setReg a (s.reg a + s.reg b)).setPc (s.pc + 3))
      else .next (takeError (.outOfBounds .fallthrough) s) := by
  simp only [exec, execAdd, checkReg_regByte]
  exact commit_advance (t := s.setReg a _) 3 rfl

theorem exec_add_invalid_first {a : Byte} (b : Byte) (h : 8 ≤ a.toNat) :
    exec (.add a b) s = .next (takeError (.invalidRegister a) s) := by
  simp only [exec, execAdd, checkReg_of_ge h]
  rfl

theorem exec_add_invalid_second (a : RegIdx) {b : Byte} (h : 8 ≤ b.toNat) :
    exec (.add (regByte a) b) s = .next (takeError (.invalidRegister b) s) := by
  simp only [exec, execAdd, checkReg_regByte, checkReg_of_ge h]
  rfl

theorem exec_mul (a b : RegIdx) :
    exec (.mul (regByte a) (regByte b)) s =
      if s.pc.toNat + 3 ≤ 255 then .next ((s.setReg a (s.reg a * s.reg b)).setPc (s.pc + 3))
      else .next (takeError (.outOfBounds .fallthrough) s) := by
  simp only [exec, execMul, checkReg_regByte]
  exact commit_advance (t := s.setReg a _) 3 rfl

theorem exec_mul_invalid_first {a : Byte} (b : Byte) (h : 8 ≤ a.toNat) :
    exec (.mul a b) s = .next (takeError (.invalidRegister a) s) := by
  simp only [exec, execMul, checkReg_of_ge h]
  rfl

theorem exec_mul_invalid_second (a : RegIdx) {b : Byte} (h : 8 ≤ b.toNat) :
    exec (.mul (regByte a) b) s = .next (takeError (.invalidRegister b) s) := by
  simp only [exec, execMul, checkReg_regByte, checkReg_of_ge h]
  rfl

theorem exec_push (r : RegIdx) :
    exec (.push (regByte r)) s =
      if s.sp = 0 then .next (takeError (.outOfBounds .stackLow) s)
      else if s.pc.toNat + 2 ≤ 255 then
        .next (((s.setSp (s.sp - 1)).setMem
          (Memory.write s.mem (s.sp - 1).toNat (if r = 7 then s.sp - 1 else s.reg r))).setPc (s.pc + 2))
      else .next (takeError (.outOfBounds .fallthrough) s) := by
  simp only [exec, execPush, checkReg_regByte]
  split
  · rw [decSp_of_eq ‹_›]
    rfl
  · rw [decSp_of_ne ‹_›]
    simp only [bind, Except.bind, memWrite_byte, State.setSp_sp, State.setSp_reg, State.setSp_mem]
    exact commit_advance (t := (s.setSp (s.sp - 1)).setMem _) 2 rfl

theorem exec_push_invalid {b : Byte} (h : 8 ≤ b.toNat) :
    exec (.push b) s = .next (takeError (.invalidRegister b) s) := by
  simp only [exec, execPush, checkReg_of_ge h]
  rfl

/-- SP just before the increment of POP r (43_stack.md R98, R101): the popped byte where r is 7, else SP. -/
def spBeforeIncrement (s : State) (r : RegIdx) : Byte :=
  if r = 7 then Memory.read s.mem s.sp.toNat else s.sp

theorem exec_pop (r : RegIdx) :
    exec (.pop (regByte r)) s =
      if spBeforeIncrement s r = 0xFF then .next (takeError (.outOfBounds .stackHigh) s)
      else if s.pc.toNat + 2 ≤ 255 then
        .next (((s.setReg r (Memory.read s.mem s.sp.toNat)).setSp (spBeforeIncrement s r + 1)).setPc (s.pc + 2))
      else .next (takeError (.outOfBounds .fallthrough) s) := by
  simp only [exec, execPop, checkReg_regByte, memRead_byte]
  have hsp : (s.setReg r (Memory.read s.mem s.sp.toNat)).sp = spBeforeIncrement s r := State.setReg_sp ..
  change commit s ((incSp (s.setReg r (Memory.read s.mem s.sp.toNat))).bind fun t => advance 2 t) = _
  split
  · rw [incSp_of_eq (by rw [hsp]; assumption)]
    rfl
  · rw [incSp_of_ne (by rw [hsp]; assumption), hsp]
    exact commit_advance (t := (s.setReg r _).setSp _) 2 rfl

theorem exec_pop_invalid {b : Byte} (h : 8 ≤ b.toNat) :
    exec (.pop b) s = .next (takeError (.invalidRegister b) s) := by
  simp only [exec, execPop, checkReg_of_ge h]
  rfl

theorem exec_call (r : RegIdx) :
    exec (.call (regByte r)) s =
      if s.sp = 0 then .next (takeError (.outOfBounds .stackLow) s)
      else if s.pc.toNat + 2 ≤ 255 then
        .next (((s.setSp (s.sp - 1)).setMem (Memory.write s.mem (s.sp - 1).toNat (s.pc + 2))).setPc
          (if r = 7 then s.sp - 1 else s.reg r))
      else .next (takeError (.outOfBounds .retAddr) s) := by
  simp only [exec, execCall, checkReg_regByte]
  split
  · rw [decSp_of_eq ‹_›]
    rfl
  · rw [decSp_of_ne ‹_›]
    split
    · rw [returnAddress_of_le ‹_›]
      simp only [pure, Except.pure, bind, Except.bind, memWrite_byte, State.setSp_sp, State.setSp_mem,
        State.setMem_reg, State.setSp_reg]
      rfl
    · rw [returnAddress_of_gt (by omega)]
      rfl

theorem exec_call_invalid {b : Byte} (h : 8 ≤ b.toNat) :
    exec (.call b) s = .next (takeError (.invalidRegister b) s) := by
  simp only [exec, execCall, checkReg_of_ge h]
  rfl

theorem exec_ret :
    exec .ret s =
      if s.sp = 0xFF then .next (takeError (.outOfBounds .stackHigh) s)
      else .next ((s.setSp (s.sp + 1)).setPc (Memory.read s.mem s.sp.toNat)) := by
  simp only [exec, execRet, memRead_byte]
  split
  · rw [incSp_of_eq ‹_›]
    rfl
  · rw [incSp_of_ne ‹_›]
    rfl

end Sys2Proof.Machine
end

