-- ==== Sys2Proof/Laws/Fetch.lean ====
section
/-! SUPPORT. What the decoder and the fetch can answer (40_fetch_execute.md R73 to R75). -/

namespace Sys2Proof.Machine

variable {m : OpcodeMap} {s : State}

/-! ## Opcode bytes -/

/-- A byte is in the map exactly when it is some instruction's opcode (30_encoding.md R55). -/
theorem mem_values (m : OpcodeMap) (b : Byte) : b ∈ m.values ↔ ∃ i : Instr, i.opcode m = b := by
  constructor
  · intro h
    simp only [OpcodeMap.values, List.mem_cons, List.not_mem_nil, or_false] at h
    rcases h with h | h | h | h | h | h | h | h | h
    · exact ⟨.hlt, h.symm⟩
    · exact ⟨.ldi 0 0, h.symm⟩
    · exact ⟨.prn 0, h.symm⟩
    · exact ⟨.add 0 0, h.symm⟩
    · exact ⟨.mul 0 0, h.symm⟩
    · exact ⟨.push 0, h.symm⟩
    · exact ⟨.pop 0, h.symm⟩
    · exact ⟨.call 0, h.symm⟩
    · exact ⟨.ret, h.symm⟩
  · rintro ⟨i, rfl⟩
    cases i <;> simp [OpcodeMap.values, Instr.opcode]

/-- Instructions with one opcode have one record: an opcode byte fixes the format (R62). -/
theorem record_of_opcode {i j : Instr} (h : i.opcode m = j.opcode m) : i.record = j.record := by
  have hd := m.distinct
  simp only [List.nodup_cons, List.mem_cons, List.not_mem_nil, or_false, not_or] at hd
  obtain ⟨h1, h2, h3, h4, h5, h6, h7, h8, -⟩ := hd
  cases i <;> cases j <;> first | rfl | (exfalso; simp only [Instr.opcode] at h; simp_all)

/-- The width that an opcode byte fixes (R62). -/
theorem widthOf_opcode (m : OpcodeMap) (i : Instr) : m.widthOf (i.opcode m) = i.width := by
  have hd := m.distinct
  simp only [List.nodup_cons, List.mem_cons, List.not_mem_nil, or_false, not_or] at hd
  obtain ⟨h1, h2, h3, h4, h5, h6, h7, h8, -⟩ := hd
  cases i <;> simp only [Instr.opcode, Instr.width, Instr.format, Format.width, OpcodeMap.widthOf, List.mem_cons,
    List.not_mem_nil, or_false, or_true, if_true, h1, h2, h3, h4, h5, h6, h7, h8, eq_comm (a := m.prn),
    eq_comm (a := m.push), eq_comm (a := m.pop), eq_comm (a := m.call), eq_comm (a := m.ret), if_false]

/-- A byte outside the map is no instruction, whatever follows it (R59). -/
theorem decodeWith_unknown {ε : Type} (unknown : Byte → ε) (operand : Nat → Except ε Byte) {b : Byte}
    (h : b ∉ m.values) : decodeWith m unknown operand b = .error (unknown b) := by
  simp only [OpcodeMap.values, List.mem_cons, List.not_mem_nil, or_false, not_or] at h
  obtain ⟨h1, h2, h3, h4, h5, h6, h7, h8, h9⟩ := h
  simp only [decodeWith, if_neg h1, if_neg h2, if_neg h3, if_neg h4, if_neg h5, if_neg h6, if_neg h7, if_neg h8,
    if_neg h9]

/-! ## The fetch -/

/-- Byte k of the instruction at pc, where that address exists (R75). -/
theorem memRead_code {k : Nat} (h : s.pc.toNat + k ≤ 255) :
    memRead ((s.pc.toNat : Int) + (k : Int)) s = .ok (s.codeByte k) := by
  rw [memRead_inside _ (by omega) (by omega)]
  rfl

/-- The fetch is the decoder on the bytes of memory from pc on: the read of the opcode byte never raises (R73). -/
theorem fetch_eq_decodeWith (m : OpcodeMap) (s : State) :
    fetch m s = decodeWith m .unknownOpcode (fun k => memRead (s.pc.toNat + k) s) (s.codeByte 0) := by
  simp only [fetch, memRead_byte, State.codeByte, State.byteAt, Nat.add_zero]
  rfl

/-- R74, R59. -/
theorem fetch_unknown (h : s.codeByte 0 ∉ m.values) : fetch m s = .error (.unknownOpcode (s.codeByte 0)) := by
  rw [fetch_eq_decodeWith, decodeWith_unknown _ _ h]

/-- Where the bytes at pc are an instruction's encoding, all inside memory, the fetch answers it (R75). -/
theorem fetch_ok {i : Instr} (hw : s.pc.toNat + i.width ≤ 256)
    (hb : ∀ k, k < i.width → (encode m i)[k]? = some (s.codeByte k)) : fetch m s = .ok i := by
  have h0 := hb 0 (by cases i <;> exact Nat.le_of_ble_eq_true rfl)
  have hop : s.codeByte 0 = i.opcode m := by
    cases i <;>
      (simp only [encode, List.getElem?_cons_zero, Option.some.injEq] at h0
       simp only [Instr.opcode, h0])
  rw [fetch_eq_decodeWith, hop]
  apply decodeWith_opcode
  intro k h1 hk
  exact ⟨s.codeByte k, memRead_code (by omega), hb k hk⟩

/-- An operand byte past 255 raises OOB_FETCH (R75). -/
theorem fetch_pastEnd (i : Instr) (ho : s.codeByte 0 = i.opcode m) (hw : 256 < s.pc.toNat + i.width) :
    fetch m s = .error (.outOfBounds .fetch) := by
  have hpc := s.pc.isLt
  have hd := m.distinct
  simp only [List.nodup_cons, List.mem_cons, List.not_mem_nil, or_false, not_or] at hd
  obtain ⟨h1, h2, h3, h4, h5, h6, h7, h8, -⟩ := hd
  have outside : ∀ k : Nat, 255 < s.pc.toNat + k →
      memRead ((s.pc.toNat : Int) + (k : Int)) s = .error (.outOfBounds .fetch) :=
    fun k hk => memRead_outside _ (by omega)
  rw [fetch_eq_decodeWith, ho]
  cases i <;> simp only [Instr.opcode, Instr.width, Instr.format, Format.width] at hw ⊢ <;> try omega
  all_goals
    simp only [decodeWith, if_true, if_false, h1, h2, h3, h4, h5, h6, h7, h8, eq_comm (a := m.ldi),
      eq_comm (a := m.prn), eq_comm (a := m.add), eq_comm (a := m.mul), eq_comm (a := m.push), eq_comm (a := m.pop),
      eq_comm (a := m.call)]
    by_cases hp : s.pc.toNat = 255
    · rw [outside 1 (by omega)]
      rfl
    · first
      | omega
      | (rw [memRead_code (by omega), outside 2 (by omega)]
         rfl)

/-- What the fetch can answer: UnknownOpcode, OOB_FETCH, or the instruction whose encoding the bytes at pc are. -/
theorem fetch_cases (m : OpcodeMap) (s : State) :
    (s.codeByte 0 ∉ m.values ∧ fetch m s = .error (.unknownOpcode (s.codeByte 0))) ∨
    ∃ i : Instr, s.codeByte 0 = i.opcode m ∧
      ((256 < s.pc.toNat + i.width ∧ fetch m s = .error (.outOfBounds .fetch)) ∨
       (s.pc.toNat + i.width ≤ 256 ∧ fetch m s = .ok i ∧
         ∀ k, k < i.width → (encode m i)[k]? = some (s.codeByte k))) := by
  by_cases h : s.codeByte 0 ∈ m.values
  · right
    have close : ∀ i : Instr, s.codeByte 0 = i.opcode m →
        (∀ k, k < i.width → (encode m i)[k]? = some (s.codeByte k)) →
        ∃ i : Instr, s.codeByte 0 = i.opcode m ∧
          ((256 < s.pc.toNat + i.width ∧ fetch m s = .error (.outOfBounds .fetch)) ∨
           (s.pc.toNat + i.width ≤ 256 ∧ fetch m s = .ok i ∧
             ∀ k, k < i.width → (encode m i)[k]? = some (s.codeByte k))) := by
      intro i h0 hb
      by_cases hw : s.pc.toNat + i.width ≤ 256
      · exact ⟨i, h0, .inr ⟨hw, fetch_ok hw hb, hb⟩⟩
      · exact ⟨i, h0, .inl ⟨by omega, fetch_pastEnd i h0 (by omega)⟩⟩
    obtain ⟨i, hi⟩ := (mem_values _ _).1 h
    cases i <;> simp only [Instr.opcode] at hi
    case' hlt => refine close .hlt hi.symm ?_
    case' ldi => refine close (.ldi (s.codeByte 1) (s.codeByte 2)) hi.symm ?_
    case' prn => refine close (.prn (s.codeByte 1)) hi.symm ?_
    case' add => refine close (.add (s.codeByte 1) (s.codeByte 2)) hi.symm ?_
    case' mul => refine close (.mul (s.codeByte 1) (s.codeByte 2)) hi.symm ?_
    case' push => refine close (.push (s.codeByte 1)) hi.symm ?_
    case' pop => refine close (.pop (s.codeByte 1)) hi.symm ?_
    case' call => refine close (.call (s.codeByte 1)) hi.symm ?_
    case' ret => refine close .ret hi.symm ?_
    all_goals
      intro k hk
      simp only [Instr.width, Instr.format, Format.width] at hk
      interval_cases k <;> simp [encode, hi]
  · exact .inl ⟨h, fetch_unknown h⟩

/-- An instruction that is fetched lies inside memory, and its bytes are the bytes at pc. -/
theorem fetch_eq_ok {i : Instr} (h : fetch m s = .ok i) :
    s.pc.toNat + i.width ≤ 256 ∧ ∀ k, k < i.width → (encode m i)[k]? = some (s.codeByte k) := by
  rcases fetch_cases m s with ⟨-, he⟩ | ⟨j, -, ⟨-, he⟩ | ⟨hw, he, hb⟩⟩
  · rw [h] at he; cases he
  · rw [h] at he; cases he
  · rw [h] at he; cases he; exact ⟨hw, hb⟩

end Sys2Proof.Machine
end

