-- ==== Sys2Proof/Laws/PerInstr.lean ====
section
/-! SUPPORT. Statements about every instruction as syntax, one lemma for each constructor. -/

namespace Sys2Proof.Laws.EncodeShape

/-- The encoding of an instruction has its width in bytes, 1 to 3, and begins with its opcode byte (30_encoding.md R53,
R54), and its register operands are as many as its format has. -/
def Statement (i : Instr) : Prop :=
  (∀ m : OpcodeMap, (encode m i).length = i.width ∧ (encode m i).head? = some (i.opcode m)) ∧
  i.width = 1 + i.format.operands.length ∧ i.width ≤ 3 ∧
  i.registerOperands.length = i.format.operands.count .register

theorem hlt : Statement .hlt := by
  exact ⟨fun _ => ⟨rfl, rfl⟩, rfl, Nat.le_of_ble_eq_true rfl, rfl⟩
theorem ldi (reg value : Byte) : Statement (.ldi reg value) := by
  exact ⟨fun _ => ⟨rfl, rfl⟩, rfl, Nat.le_of_ble_eq_true rfl, rfl⟩
theorem prn (reg : Byte) : Statement (.prn reg) := by
  exact ⟨fun _ => ⟨rfl, rfl⟩, rfl, Nat.le_of_ble_eq_true rfl, rfl⟩
theorem add (regA regB : Byte) : Statement (.add regA regB) := by
  exact ⟨fun _ => ⟨rfl, rfl⟩, rfl, Nat.le_of_ble_eq_true rfl, rfl⟩
theorem mul (regA regB : Byte) : Statement (.mul regA regB) := by
  exact ⟨fun _ => ⟨rfl, rfl⟩, rfl, Nat.le_of_ble_eq_true rfl, rfl⟩
theorem push (reg : Byte) : Statement (.push reg) := by
  exact ⟨fun _ => ⟨rfl, rfl⟩, rfl, Nat.le_of_ble_eq_true rfl, rfl⟩
theorem pop (reg : Byte) : Statement (.pop reg) := by
  exact ⟨fun _ => ⟨rfl, rfl⟩, rfl, Nat.le_of_ble_eq_true rfl, rfl⟩
theorem call (reg : Byte) : Statement (.call reg) := by
  exact ⟨fun _ => ⟨rfl, rfl⟩, rfl, Nat.le_of_ble_eq_true rfl, rfl⟩
theorem ret : Statement .ret := by
  exact ⟨fun _ => ⟨rfl, rfl⟩, rfl, Nat.le_of_ble_eq_true rfl, rfl⟩

end Sys2Proof.Laws.EncodeShape
end

