-- ==== Sys2Proof/Machine/Flags.lean ====
section
/-! DEFINITION. There is nothing to define here: the CORE has no flags register and no condition codes, no instruction
sets or reads a flag, and an overflow in ADD or MUL leaves no trace (10_state.md R27, 42_alu.md R93). -/
end

