-- ==== Sys2Proof/Tests/Slice0.lean ====
section
/-! SUPPORT. Tests, with the source of each expected result, and the witnesses of the statements' hypotheses. Vector
names such as PU2 are those of 95_test_vectors.md. -/

namespace Sys2Proof.Tests

open Sys2Proof Sys2Proof.Machine

/-- The launch state but for pc and the bytes placed at pc. -/
def atPc (pc : Byte) (code : List Byte) : State :=
  { State.reset with pc := pc, mem := Memory.load [] pc.toNat code }

/-- The state with one more byte of memory set. -/
def withByte (s : State) (a : Nat) (v : Byte) : State := s.setMem (Memory.write s.mem a v)

/-- The next state of an outcome, if it has one. -/
def nextOf (r : StepResult) : Option State :=
  match r with
  | .next t => some t
  | .fault _ => none
  | .refused _ => none

/-! ## WellFormed: each check refuses an ill-formed term (R22, R76) -/

theorem test_wellFormed_accepts :
    [Instr.hlt, .ldi 7 255, .prn 7, .add 7 0, .mul 0 7, .push 7, .pop 0, .call 7, .ret].all Instr.wellFormed := by
  decide
theorem test_wellFormed_refuses_ldi : (Instr.ldi 8 0).wellFormed = false := by decide
theorem test_wellFormed_refuses_prn : (Instr.prn 255).wellFormed = false := by decide
theorem test_wellFormed_refuses_add_first : (Instr.add 8 0).wellFormed = false := by decide
theorem test_wellFormed_refuses_add_second : (Instr.add 0 8).wellFormed = false := by decide
theorem test_wellFormed_refuses_mul_first : (Instr.mul 8 0).wellFormed = false := by decide
theorem test_wellFormed_refuses_mul_second : (Instr.mul 0 8).wellFormed = false := by decide
theorem test_wellFormed_refuses_push : (Instr.push 8).wellFormed = false := by decide
theorem test_wellFormed_refuses_pop : (Instr.pop 8).wellFormed = false := by decide
theorem test_wellFormed_refuses_call : (Instr.call 16).wellFormed = false := by decide

/-! ## Decode: words written out from R54 and R55 -/

theorem test_decode_hlt : decodeTableWord 8 0b00000001 = some .hlt := by decide
theorem test_decode_ldi :
    decode defaultOpcodeMap [0b10000010, 0b00000101, 0b11111111] = .ok (.ldi 5 255, []) := by rfl
theorem test_decode_prn : decode defaultOpcodeMap [0b01000111, 0b00000110, 0x99] = .ok (.prn 6, [0x99]) := by rfl
theorem test_decode_add : decodeTableWord 24 0b00000010_00000001_10100000 = some (.add 1 2) := by decide
theorem test_decode_mul : decodeTableWord 24 0b00000100_00000011_10100010 = some (.mul 3 4) := by decide
theorem test_decode_push : decodeTableWord 16 0b00000111_01000101 = some (.push 7) := by decide
theorem test_decode_pop : decodeTableWord 16 0b00000001_01000110 = some (.pop 1) := by decide
theorem test_decode_call : decodeTableWord 16 0b00000010_01010000 = some (.call 2) := by decide
theorem test_decode_ret : decodeTableWord 8 0b00010001 = some .ret := by decide

/-- FD1 and FD2: 0x00 and the LS-8's SUB are no opcodes here; an instruction needs all of its bytes. -/
theorem test_decode_rejects :
    decodeTableWord 8 0x00 = none ∧ decodeTableWord 24 0xA1 = none ∧
      decode defaultOpcodeMap [0xA0, 0] = .error .truncated := by
  exact ⟨rfl, rfl, rfl⟩

/-- The table of R58. -/
theorem test_decode_record :
    Instr.hlt.record = ⟨1, [], .control, none, false, .none⟩ ∧
    (Instr.ldi 0 0).record = ⟨3, [.register, .immediate], .other, none, true, .none⟩ ∧
    (Instr.prn 0).record = ⟨2, [.register], .output, none, true, .none⟩ ∧
    (Instr.add 0 0).record = ⟨3, [.register, .register], .alu, some .add, true, .none⟩ ∧
    (Instr.mul 0 0).record = ⟨3, [.register, .register], .alu, some .mul, true, .none⟩ ∧
    (Instr.push 0).record = ⟨2, [.register], .stack, none, true, .writeBelowSp⟩ ∧
    (Instr.pop 0).record = ⟨2, [.register], .stack, none, true, .readAtSp⟩ ∧
    (Instr.call 0).record = ⟨2, [.register], .controlStack, none, false, .writeBelowSp⟩ ∧
    Instr.ret.record = ⟨1, [], .controlStack, none, false, .readAtSp⟩ := by
  decide

/-- R68, with the source's text of program P2 (W6) and its image. -/
theorem test_assemble_mult :
    Assembly.assemble defaultOpcodeMap "LDI r0 8; LDI r1 9; MUL r0 r1; PRN r0; HLT".toList =
      some [0x82, 0x00, 0x08, 0x82, 0x01, 0x09, 0xA2, 0x00, 0x01, 0x47, 0x00, 0x01] := by
  decide
/-- R68: SP is r7, immediates may be hexadecimal, a newline separates; r8 and 256 are no operands. -/
theorem test_assemble_forms :
    Assembly.assemble defaultOpcodeMap "LDI SP 0xfF\nRET".toList = some [0x82, 0x07, 0xFF, 0x11] ∧
    Assembly.assemble defaultOpcodeMap "PRN r8".toList = none ∧
    Assembly.assemble defaultOpcodeMap "LDI r0 256".toList = none := by
  decide

/-! ## Single steps -/

/-- H2. -/
theorem test_hlt_at_top : nextOf (step (atPc 0xFF [0x01])) = some ((atPc 0xFF [0x01]).setStatus .halted) := by decide
/-- FD14. -/
theorem test_no_step_after_hlt : step ((atPc 0 [0x01]).setStatus .halted) = .fault .halted := by rfl
/-- L2. -/
theorem test_ldi_sp :
    nextOf (step (atPc 0 [0x82, 7, 0x10])) = some (((atPc 0 [0x82, 7, 0x10]).setSp 0x10).setPc 3) := by decide
/-- L5. -/
theorem test_ldi_last_place :
    nextOf (step (atPc 0xFC [0x82, 1, 0x2A])) = some (((atPc 0xFC [0x82, 1, 0x2A]).setReg 1 42).setPc 0xFF) := by
  decide
/-- PR2. -/
theorem test_prn_sp : nextOf (step (atPc 0 [0x47, 7])) = some (((atPc 0 [0x47, 7]).emit 244).setPc 2) := by decide
/-- PR5. -/
theorem test_prn_appends :
    (nextOf (step (((atPc 0 [0x47, 1]).emit 5).setReg 1 6))).map State.out = some [5, 6] := by decide
/-- A3. -/
theorem test_add_same_register :
    (nextOf (step ((atPc 0 [0xA0, 2, 2]).setReg 2 128))).map (fun t => t.reg 2) = some 0 := by decide
/-- A5. -/
theorem test_add_reads_sp :
    (nextOf (step ((atPc 0 [0xA0, 0, 7]).setReg 0 0x10))).map (fun t => (t.reg 0, t.sp)) = some (0x04, 0xF4) := by
  decide
/-- M3. -/
theorem test_mul_wraps :
    (nextOf (step (((atPc 0 [0xA2, 0, 1]).setReg 0 255).setReg 1 255))).map (fun t => (t.reg 0, t.reg 1)) =
      some (1, 255) := by
  decide
/-- M8. -/
theorem test_mul_second_operand :
    nextOf (step (atPc 0 [0xA2, 0, 9])) = some ((atPc 0 [0xA2, 0, 9]).faultedWith .invalidRegister 9) := by decide
/-- PU2. -/
theorem test_push_sp :
    (nextOf (step (atPc 0 [0x45, 7]))).map (fun t => (t.sp, t.byteAt 0xF3, t.pc)) = some (0xF3, 0xF3, 2) := by decide
/-- PU3. -/
theorem test_push_to_zero :
    (nextOf (step (((atPc 0x10 [0x45, 0]).setSp 1).setReg 0 0x99))).map (fun t => (t.sp, t.byteAt 0, t.pc)) =
      some (0, 0x99, 0x12) := by
  decide
/-- PO4. -/
theorem test_pop_sp :
    (nextOf (step ((withByte (atPc 0 [0x46, 7]) 0xF3 0x80).setSp 0xF3))).map State.sp = some 0x81 := by decide
/-- PO6. -/
theorem test_pop_sp_at_top :
    (nextOf (step ((withByte (atPc 0 [0x46, 7]) 0xFF 0x20).setSp 0xFF))).map State.sp = some 0x21 := by decide
/-- C6. -/
theorem test_call_sp :
    (nextOf (step (atPc 0x10 [0x50, 7]))).map (fun t => (t.sp, t.byteAt 0xF3, t.pc)) = some (0xF3, 0x12, 0xF3) := by
  decide
/-- C4. -/
theorem test_call_checks_stack_first :
    nextOf (step ((atPc 0xFE [0x50, 0]).setSp 0)) =
      some (((atPc 0xFE [0x50, 0]).setSp 0).faultedWith .outOfBoundsAddress 0x02) := by
  decide
/-- R3. -/
theorem test_ret_at_top :
    (nextOf (step ((withByte (atPc 0xFF [0x11]) 0xF3 0x20).setSp 0xF3))).map (fun t => (t.pc, t.sp)) =
      some (0x20, 0xF4) := by
  decide
/-- R2. -/
theorem test_ret_past_top :
    nextOf (step ((withByte (atPc 0 [0x11]) 0xFF 3).setSp 0xFF)) =
      some (((withByte (atPc 0 [0x11]) 0xFF 3).setSp 0xFF).faultedWith .outOfBoundsAddress 0x03) := by
  decide
/-- FD5. -/
theorem test_fetch_past_end :
    nextOf (step (atPc 0xFE [0x82, 0])) = some ((atPc 0xFE [0x82, 0]).faultedWith .outOfBoundsAddress 0x00) := by
  decide
/-- FD7: the register write is discarded. -/
theorem test_fall_through :
    nextOf (step (atPc 0xFD [0x82, 0, 5])) = some ((atPc 0xFD [0x82, 0, 5]).faultedWith .outOfBoundsAddress 0x01) := by
  decide
/-- A table word is fetched and run as the very next step, from reset (log entry 5). -/
theorem test_withFetchWord :
    (nextOf (step (State.reset.withFetchWord 24 0b00001000_00000000_10000010))).map (fun t => (t.reg 0, t.pc)) =
      some (8, 3) := by
  decide
/-- R132, with no program loaded. -/
theorem test_empty_image : nextOf (step State.reset) = some (State.reset.faultedWith .unknownOpcode 0x00) := by decide

/-- R111's kind codes and R29's status code on the outputs, for FD1, FD8 and FD4; no step raises the fourth kind. -/
theorem test_ports_of_errors :
    (nextOf (step (atPc 0 [0x00]))).map State.ports = some ⟨0b10, 0, 0, 0x00⟩ ∧
    (nextOf (step (atPc 0 [0xA0, 8, 9]))).map State.ports = some ⟨0b10, 1, 0, 0x08⟩ ∧
    (nextOf (step (atPc 0xFF [0x47]))).map State.ports = some ⟨0b10, 2, 0xFF, 0x00⟩ ∧
    (State.reset.faultedWith .unsupportedAluOperation 7).ports = ⟨0b10, 3, 0, 7⟩ := by
  decide

/-! ## Witnesses: states and operands that meet a statement's hypotheses, at the ends of their ranges -/

/-- The fullest image that has a launch state. -/
theorem witness_LaunchPlacesImage : (List.replicate 256 (0x45 : Byte)).length ≤ 256 :=
  Nat.le_of_eq List.length_replicate
theorem witness_LaunchValues : (List.replicate 256 (0x45 : Byte)).length ≤ 256 := witness_LaunchPlacesImage
theorem witness_OversizedImageRefusedEmptyLegal : 256 < (List.replicate 257 (0x45 : Byte)).length := by
  rw [List.length_replicate]
  decide
theorem witness_DecodedBytesAreTheEncoding :
    decode defaultOpcodeMap [0x82, 7, 255, 0x11] = .ok (.ldi 7 255, [0x11]) := by rfl
theorem witness_OpcodeOutsideMapIsIllegal :
    (0xFF : Byte) ∉ defaultOpcodeMap.values ∧ (atPc 0xFF [0xFF]).status = .running ∧
      (atPc 0xFF [0xFF]).byteAt (atPc 0xFF [0xFF]).pc.toNat = 0xFF := by
  decide
theorem witness_BytesBeyondWidthDoNotMatter :
    (fetch defaultOpcodeMap (atPc 0xFE [0x45, 3]) = .ok (.push 3) ∧
      (withByte (atPc 0xFE [0x45, 3]) 0 9).pc = (atPc 0xFE [0x45, 3]).pc ∧
      ∀ k, k < 2 → (withByte (atPc 0xFE [0x45, 3]) 0 9).codeByte k = (atPc 0xFE [0x45, 3]).codeByte k) ∧
    ((atPc 0xFF [0x01]).status = .running ∧ (atPc 0xFF [0x01]).pc = 0xFF ∧
      (atPc 0xFF [0x01]).byteAt 0xFF = defaultOpcodeMap.hlt) := by
  exact ⟨⟨rfl, rfl, by decide⟩, by decide⟩
theorem witness_StepRunsDecodedInstruction :
    (atPc 0xFD [0xA0, 1, 2]).status = .running ∧
    decode defaultOpcodeMap (codeBytes (atPc 0xFD [0xA0, 1, 2])) = .ok (.add 1 2, []) ∧
    (atPc 0xFD [0xA0, 1, 2]).pc.toNat + (Instr.add 1 2).width ≤ 256 ∧
    ∀ k, k < (Instr.add 1 2).width →
      (encode defaultOpcodeMap (.add 1 2))[k]? = some ((atPc 0xFD [0xA0, 1, 2]).codeByte k) := by
  exact ⟨rfl, rfl, by decide, by decide⟩
theorem witness_OperandFetchPastEndRaises :
    (atPc 0xFE [0xA2, 0]).status = .running ∧ (atPc 0xFE [0xA2, 0]).byteAt 0xFE ∈ defaultOpcodeMap.values ∧
      256 < (atPc 0xFE [0xA2, 0]).pc.toNat + defaultOpcodeMap.widthOf ((atPc 0xFE [0xA2, 0]).byteAt 0xFE) := by
  decide
/-- One next state in each status. -/
theorem witness_StatusTransitions :
    (nextOf (stepWith defaultOpcodeMap (atPc 0 [0x01]))).map State.status = some .halted ∧
    (nextOf (stepWith defaultOpcodeMap (atPc 0 [0x00]))).map State.status = some .faulted ∧
    (nextOf (stepWith defaultOpcodeMap (atPc 0 [0x47, 0]))).map State.status = some .running := by
  decide
theorem witness_ErrorsArePrecise :
    (nextOf (stepWith defaultOpcodeMap (atPc 0xFE [0x45, 0]))).map State.status = some .faulted := by decide
theorem witness_StepIsChecksThenCommit :
    (atPc 0 [0x46, 1]).status = .running ∧ firstError defaultOpcodeMap (atPc 0 [0x46, 1]) = none ∧
    (atPc 0xFE [0xA0, 8]).status = .running ∧
      firstError defaultOpcodeMap (atPc 0xFE [0xA0, 8]) = some (.outOfBounds .fetch) := by
  decide
theorem witness_RegisterOperandsCheckedInOrder :
    (Instr.add 7 8).registerOperands.find? (fun b => !namesRegister b) = some 8 ∧
    (Instr.ldi 7 255).wellFormed = true ∧ (atPc 0xFD [0x82, 7, 255]).status = .running ∧
    (nextOf (exec (.ldi 7 255) (atPc 0xFD [0x82, 7, 255]))).map State.status = some .faulted := by
  decide
theorem witness_FallThroughPastEndRaises :
    ((Instr.add 7 0).advances = true ∧ (Instr.add 7 0).access = .none ∧ (Instr.add 7 0).wellFormed = true ∧
      255 < (atPc 0xFD []).pc.toNat + (Instr.add 7 0).width) ∧
    ((atPc 0xFE []).sp ≠ 0 ∧ 255 < (atPc 0xFE []).pc.toNat + 2) ∧
    ((atPc 0xFE []).byteAt (atPc 0xFE []).sp.toNat ≠ 0xFF ∧ (atPc 0xFE []).sp ≠ 0xFF) ∧
    (Instr.ret.advances = false ∧ (atPc 0xFF []).status = .running ∧
      (nextOf (exec .ret ((atPc 0xFF []).setSp 0xFF))).map State.status = some .faulted) := by
  decide
theorem witness_PushAtZeroRaises :
    ((atPc 0xFE []).setSp 0).sp = 0 ∧
    (((atPc 0xFD []).setSp 1).sp = 1 ∧ ((atPc 0xFD []).setSp 1).pc.toNat + 2 ≤ 255) := by
  decide
theorem witness_PopPastTopRaises :
    ((atPc 0 []).setSp 0xFF).sp = 0xFF ∧ (3 : RegIdx) ≠ 7 ∧
    (withByte (atPc 0 []) 0xF4 0xFF).byteAt (withByte (atPc 0 []) 0xF4 0xFF).sp.toNat = 0xFF ∧
    (((atPc 0xFD []).setSp 0xFF).byteAt 0xFF ≠ 0xFF ∧ ((atPc 0xFD []).setSp 0xFF).pc.toNat + 2 ≤ 255) := by
  decide
theorem witness_CallReturnAddressBound : (atPc 0xFE []).sp ≠ 0 ∧ 255 < (atPc 0xFE []).pc.toNat + 2 := by decide
theorem witness_AluErrorIsUnreachable :
    (nextOf (stepWith defaultOpcodeMap (atPc 0xFD [0xA2, 0, 0]))).map State.status = some .faulted := by decide
theorem witness_HltHalts :
    (atPc 0xFF [0x01]).status = .running ∧
      (atPc 0xFF [0x01]).byteAt (atPc 0xFF [0x01]).pc.toNat = defaultOpcodeMap.hlt := by
  decide
/-- The last place where LDI, ADD and MUL complete. -/
theorem witness_three_byte_completion : (atPc 0xFC []).pc.toNat + 3 ≤ 255 := by decide
theorem witness_LdiLoadsImmediate : ∃ s : State, s.pc = 0xFC ∧ s.pc.toNat + 3 ≤ 255 :=
  ⟨atPc 0xFC [], rfl, witness_three_byte_completion⟩
theorem witness_AddAddsModulo256 : ∃ s : State, s.pc = 0xFC ∧ s.pc.toNat + 3 ≤ 255 := witness_LdiLoadsImmediate
theorem witness_MulMultipliesModulo256 : ∃ s : State, s.pc = 0xFC ∧ s.pc.toNat + 3 ≤ 255 := witness_LdiLoadsImmediate
theorem witness_PrnEmitsRegister : (atPc 0xFD []).pc.toNat + 2 ≤ 255 := by decide
theorem witness_PushStoresBelowSp :
    ((atPc 0xFD []).setSp 1).sp ≠ 0 ∧ ((atPc 0xFD []).setSp 1).pc.toNat + 2 ≤ 255 := by decide
theorem witness_PopLoadsFromSp :
    ((atPc 0xFD []).setSp 0xFE).sp ≠ 0xFF ∧ (atPc 0xFD []).pc.toNat + 2 ≤ 255 ∧
      ((atPc 0xFD []).setSp 0xFF).byteAt ((atPc 0xFD []).setSp 0xFF).sp.toNat ≠ 0xFF := by
  decide
theorem witness_CallPushesReturnAddress :
    ((atPc 0xFD []).setSp 1).sp ≠ 0 ∧ ((atPc 0xFD []).setSp 1).pc.toNat + 2 ≤ 255 := by decide
theorem witness_RetPopsReturnAddress : ((atPc 0xFF []).setSp 0xFE).sp ≠ 0xFF := by decide
theorem witness_PcUpdate :
    (nextOf (stepWith defaultOpcodeMap (atPc 0 [0x00]))).map State.status = some .faulted ∧
    fetch defaultOpcodeMap (atPc 0xFC [0x82, 0, 0]) = .ok (.ldi 0 0) ∧
    (nextOf (stepWith defaultOpcodeMap (atPc 0xFC [0x82, 0, 0]))).map State.status = some .running ∧
    fetch defaultOpcodeMap (atPc 0xFF [0x01]) = .ok .hlt ∧
    (nextOf (stepWith defaultOpcodeMap (atPc 0xFF [0x01]))).map State.status = some .halted ∧
    fetch defaultOpcodeMap (atPc 0xFD [0x50, 7]) = .ok (.call (regByte 7)) ∧
    (nextOf (stepWith defaultOpcodeMap (atPc 0xFD [0x50, 7]))).map State.status = some .running ∧
    fetch defaultOpcodeMap (atPc 0xFF [0x11]) = .ok .ret ∧
    (nextOf (stepWith defaultOpcodeMap (atPc 0xFF [0x11]))).map State.status = some .running := by
  exact ⟨by decide, rfl, by decide, rfl, by decide, rfl, by decide, rfl, by decide⟩
theorem witness_RegistersReadAndWritten :
    ((nextOf (exec (.ldi 7 0) (atPc 0 []))).map (fun t => t.reg 7) = some 0 ∧ (atPc 0 []).reg 7 ≠ 0) ∧
    (regByte 6 ∉ (Instr.add 1 2).regsRead ∧ regByte 6 ∉ (Instr.add 1 2).regsWritten ∧
      (nextOf (exec (.add 1 2) (atPc 0 []))).isSome) ∧
    (regByte 3 ∉ (Instr.pop 3).regsRead ∧ regByte 3 ∈ (Instr.pop 3).regsWritten ∧
      (nextOf (exec (.pop 3) (atPc 0 []))).map State.status = some .running) ∧
    ((nextOf (exec (.mul 0 7) (atPc 0xFD []))).map State.status = some .faulted ∧
      (Instr.mul 0 7).registerOperands = [regByte 0, regByte 7]) := by
  decide
theorem witness_MemoryAccessedOnlyAsListed :
    (∀ k, k < 3 → (atPc 0xFE [0x45, 0]).pc.toNat + k ≤ 255 →
      (withByte (atPc 0xFE [0x45, 0]) 0 1).codeByte k = (atPc 0xFE [0x45, 0]).codeByte k) ∧
    ((nextOf (stepWith defaultOpcodeMap ((atPc 0x10 [0x45, 7]).setSp 2))).map (fun t => t.byteAt 1) = some 1 ∧
      (atPc 0x10 [0x45, 7]).byteAt 1 ≠ 1) ∧
    ((nextOf (exec .ret (atPc 0 []))).isSome ∧ Instr.ret.access = .readAtSp ∧
      Memory.read [(3, 7)] (atPc 0 []).sp.toNat = (atPc 0 []).byteAt (atPc 0 []).sp.toNat) := by
  decide
theorem witness_OnlyPrnEmits :
    (nextOf (stepWith defaultOpcodeMap (atPc 0xFD [0x47, 7]))).map State.out = some [244] ∧
    fetch defaultOpcodeMap (atPc 0xFE [0x47, 7]) = .ok (.prn (regByte 7)) ∧
    (nextOf (stepWith defaultOpcodeMap (atPc 0xFE [0x47, 7]))).map State.status = some .faulted := by
  exact ⟨by decide, rfl, by decide⟩
/-- PUSH r0 with SP one above the next instruction: r0 holds the HLT opcode, or a byte that is none. -/
theorem witness_PushedByteIsFetchedAtOnce :
    let t := (atPc 0x10 [0x45, 0]).setSp 0x13
    t.status = .running ∧ t.sp ≠ 0 ∧ t.pc.toNat + 2 ≤ 255 ∧ (t.sp - 1).toNat = t.pc.toNat + 2 ∧
      (nextOf (exec (.push (regByte 0)) (t.setReg 0 1))).isSome ∧ (t.setReg 0 1).reg 0 = defaultOpcodeMap.hlt ∧
      t.reg 0 ∉ defaultOpcodeMap.values := by
  decide
theorem witness_PushPopRoundTrip :
    ((atPc 0xFB []).setSp 1).sp ≠ 0 ∧ ((atPc 0xFB []).setSp 1).pc.toNat + 4 ≤ 255 ∧
      ((3 : RegIdx) ≠ 7 ∧ ((atPc 0xFB []).setSp 1).reg 3 ≠ 0xFF) := by
  decide
theorem witness_CallReturnRoundTrip :
    ((atPc 0xFD []).setSp 1).sp ≠ 0 ∧ ((atPc 0xFD []).setSp 1).pc.toNat + 2 ≤ 255 ∧
    ∃ t u : State, nextOf (exec (.call (regByte 2)) ((atPc 0xFD []).setSp 1)) = some t ∧ u.sp = t.sp ∧
      u.byteAt u.sp.toNat = t.byteAt t.sp.toNat ∧ u.pc = 0x80 := by
  refine ⟨by decide, by decide, _, withByte ((atPc 0x80 []).setSp 0) 0 0xFF, rfl, ?_⟩
  decide
theorem witness_MemoryReadsLastWrite :
    ((0 : Int) ≤ 255 ∧ (255 : Int) ≤ 255) ∧ ((-1 : Int) < 0 ∨ (255 : Int) < -1) ∧ ((256 : Int) < 0 ∨ (255 : Int) < 256) := by
  decide
/-- A state that meets the invariant and steps: the launch of an image, and the empty image's FAULTED end. -/
theorem witness_StepKeepsInvariant :
    (State.reset.Inv defaultOpcodeMap ∧ (nextOf (stepWith defaultOpcodeMap State.reset)).isSome) ∧
    (State.reset.faultedWith .unknownOpcode 0x00).Inv defaultOpcodeMap := by
  refine ⟨⟨⟨rfl, fun h => ?_, fun _ => rfl, fun h => ?_⟩, by decide⟩,
    ⟨rfl, fun _ => ⟨.unknownOpcode 0x00, by decide, rfl⟩, fun h => absurd rfl h, fun h => ?_⟩⟩
  · exact absurd h (by decide)
  · exact absurd h (by decide)
  · exact absurd h (by decide)
theorem witness_LaunchMeetsInvariant :
    (List.replicate 256 (0x45 : Byte)).length ≤ 256 ∧ Memory.wf (atPc 0xFF [0x45]).mem = true :=
  ⟨witness_LaunchPlacesImage, rfl⟩
theorem witness_RunHasOneEndAndOutputOnlyGrows :
    EndsIn defaultOpcodeMap State.reset (State.reset.faultedWith .unknownOpcode 0x00) :=
  ⟨1, by decide, by decide⟩
theorem witness_AssemblerInvertsListing :
    Assembly.listing (.ldi 7 255) = some "LDI r7 255".toList ∧ Assembly.listing .hlt = some "HLT".toList := by
  decide

end Sys2Proof.Tests
end

section
/-! SUPPORT. The fetch reads no byte beyond the width of what it answers (30_encoding.md R66), and a RUNNING step
executes what it fetched (40_fetch_execute.md R83). -/

namespace Sys2Proof.Machine

variable {m : OpcodeMap} {s t : State} {i : Instr}

/-- A RUNNING step is the execution of the instruction that the fetch answers (R83). -/
theorem stepWith_of_fetch_ok (hs : s.status = .running) (hf : fetch m s = .ok i) : stepWith m s = exec i s := by
  simp only [stepWith, hs, hf]

/-- The fetch of an instruction depends on the pc and the bytes within the instruction's width, and on no other part
of the state (R66, R75). -/
theorem fetch_ok_of_codeByte_eq (hf : fetch m s = .ok i) (hpc : t.pc = s.pc)
    (hbytes : ∀ k, k < i.width → t.codeByte k = s.codeByte k) : fetch m t = .ok i := by
  obtain ⟨hinside, henc⟩ := fetch_eq_ok hf
  refine fetch_ok (hpc ▸ hinside) fun k hk => ?_
  rw [hbytes k hk]
  exact henc k hk

/-- The HLT opcode is a whole instruction, so its fetch succeeds at every pc, 0xFF included (R66, R73). -/
theorem fetch_hlt (h : s.codeByte 0 = m.hlt) : fetch m s = .ok .hlt := by
  refine fetch_ok s.pc.isLt fun k hk => ?_
  obtain rfl : k = 0 := Nat.lt_one_iff.mp hk
  rw [h]
  rfl

/-- Settles O10: a fetched instruction's encoding ends at its width, so the bytes within that width already determine
the fetch; HLT has width 1, so at 0xFF it is fetched whole and halts. -/
theorem bytesBeyondWidthDoNotMatter : Obligations.BytesBeyondWidthDoNotMatter := by
  unfold Obligations.BytesBeyondWidthDoNotMatter
  constructor
  · exact fun m s t i hf hpc hbytes => fetch_ok_of_codeByte_eq hf hpc hbytes
  · intro m s hs hpc hbyte
    have hop : s.codeByte 0 = m.hlt := by
      rw [State.codeByte, hpc]
      exact hbyte
    refine ⟨s.setStatus .halted, ?_, State.setStatus_status s .halted⟩
    rw [stepWith_of_fetch_ok hs (fetch_hlt hop), exec_hlt]

end Sys2Proof.Machine
end

section
/-! SUPPORT. The register check as a whole (40_fetch_execute.md R76): an instruction with a register operand outside 0
to 7 raises InvalidRegister with the first such byte, and one without completes or goes out of bounds. -/

namespace Sys2Proof.Machine

variable {i : Instr} {s : State} {b : Byte}

/-- The search for the first byte that names no register stops at one of 8 to 255, and passes over one of 0 to 7. -/
theorem find?_not_namesRegister_cons {a : Byte} {rest : List Byte} :
    (a :: rest).find? (fun b => !namesRegister b) = some b ↔
      (a = b ∧ 8 ≤ b.toNat) ∨
      (∃ r : RegIdx, a = regByte r) ∧ rest.find? (fun b => !namesRegister b) = some b := by
  rcases byte_cases a with ⟨r, rfl⟩ | hge
  · have hne : ¬(regByte r = b ∧ 8 ≤ b.toNat) := by
      rintro ⟨rfl, hge⟩
      exact absurd (namesRegister_of_ge hge) (by simp)
    simp [hne]
  · have hnot : ¬∃ r : RegIdx, a = regByte r := by
      rintro ⟨r, rfl⟩
      exact absurd (namesRegister_of_ge hge) (by simp)
    simp only [List.find?_cons, namesRegister_of_ge hge, Bool.not_false, Option.some.injEq, hnot, false_and, or_false]
    exact ⟨fun h => ⟨h, h ▸ hge⟩, And.left⟩

/-- The first register operand outside 0 to 7 raises InvalidRegister with that byte, whatever the rest of the
instruction and the state are (R76, 60_exceptions.md R113). -/
theorem exec_of_find?_invalid (h : i.registerOperands.find? (fun b => !namesRegister b) = some b) :
    exec i s = .next (takeError (.invalidRegister b) s) := by
  cases i <;>
    simp only [Instr.registerOperands, find?_not_namesRegister_cons, List.find?_nil, reduceCtorEq, and_false,
      or_false] at h
  case ldi reg value =>
    obtain ⟨rfl, hge⟩ := h
    exact exec_ldi_invalid s value hge
  case prn reg =>
    obtain ⟨rfl, hge⟩ := h
    exact exec_prn_invalid s hge
  case add regA regB =>
    obtain ⟨rfl, hge⟩ | ⟨⟨r, rfl⟩, rfl, hge⟩ := h
    · exact exec_add_invalid_first s regB hge
    · exact exec_add_invalid_second s r hge
  case mul regA regB =>
    obtain ⟨rfl, hge⟩ | ⟨⟨r, rfl⟩, rfl, hge⟩ := h
    · exact exec_mul_invalid_first s regB hge
    · exact exec_mul_invalid_second s r hge
  case push reg =>
    obtain ⟨rfl, hge⟩ := h
    exact exec_push_invalid s hge
  case pop reg =>
    obtain ⟨rfl, hge⟩ := h
    exact exec_pop_invalid s hge
  case call reg =>
    obtain ⟨rfl, hge⟩ := h
    exact exec_call_invalid s hge

/-- A result that is a completed instruction, HALTED for HLT and with the status it began with for every other (R78,
R82), or the error entry of an address out of bounds (R79, 60_exceptions.md R114). -/
def CompletesOrOutOfBounds (i : Instr) (s : State) (result : StepResult) : Prop :=
  (∃ t, result = .next t ∧ t.status = if i = .hlt then .halted else s.status) ∨
  ∃ cause, result = .next (takeError (.outOfBounds cause) s)

/-- A bound check keeps the property: where the bound is exceeded, it raises out of bounds. -/
theorem CompletesOrOutOfBounds.checked {p : Prop} [Decidable p] {cause : OobCause} {result : StepResult}
    (h : CompletesOrOutOfBounds i s result) :
    CompletesOrOutOfBounds i s (if p then .next (takeError (.outOfBounds cause) s) else result) := by
  split
  · exact .inr ⟨cause, rfl⟩
  · exact h

/-- A bound check with the bound written first. -/
theorem CompletesOrOutOfBounds.within {p : Prop} [Decidable p] {cause : OobCause} {result : StepResult}
    (h : CompletesOrOutOfBounds i s result) :
    CompletesOrOutOfBounds i s (if p then result else .next (takeError (.outOfBounds cause) s)) := by
  split
  · exact h
  · exact .inr ⟨cause, rfl⟩

/-- An instruction whose register operands all name registers raises nothing but out of bounds. -/
theorem exec_of_wellFormed (s : State) (hw : i.wellFormed = true) : CompletesOrOutOfBounds i s (exec i s) := by
  have hregs := (wellFormed_iff i).1 hw
  cases i <;>
    simp only [Instr.registerOperands, List.forall_mem_cons, List.not_mem_nil, false_imp_iff, implies_true,
      and_true] at hregs
  case hlt => exact .inl ⟨_, exec_hlt s, rfl⟩
  case ldi reg value =>
    obtain ⟨r, rfl⟩ := hregs
    exact exec_ldi s r value ▸ .within (.inl ⟨_, rfl, rfl⟩)
  case prn reg =>
    obtain ⟨r, rfl⟩ := hregs
    exact exec_prn s r ▸ .within (.inl ⟨_, rfl, rfl⟩)
  case add regA regB =>
    obtain ⟨⟨a, rfl⟩, b, rfl⟩ := hregs
    exact exec_add s a b ▸ .within (.inl ⟨_, rfl, rfl⟩)
  case mul regA regB =>
    obtain ⟨⟨a, rfl⟩, b, rfl⟩ := hregs
    exact exec_mul s a b ▸ .within (.inl ⟨_, rfl, rfl⟩)
  case push reg =>
    obtain ⟨r, rfl⟩ := hregs
    exact exec_push s r ▸ .checked (.within (.inl ⟨_, rfl, rfl⟩))
  case pop reg =>
    obtain ⟨r, rfl⟩ := hregs
    exact exec_pop s r ▸ .checked (.within (.inl ⟨_, rfl, rfl⟩))
  case call reg =>
    obtain ⟨r, rfl⟩ := hregs
    exact exec_call s r ▸ .checked (.within (.inl ⟨_, rfl, rfl⟩))
  case ret => exact exec_ret s ▸ .checked (.inl ⟨_, rfl, rfl⟩)

/-- Settles O17: the register check stops at the first operand byte outside 0 to 7, and an instruction that passes it
raises nothing but out of bounds. -/
theorem registerOperandsCheckedInOrder : Obligations.RegisterOperandsCheckedInOrder := by
  unfold Obligations.RegisterOperandsCheckedInOrder
  constructor
  · exact fun i s b hfirst => exec_of_find?_invalid hfirst
  · intro i s t hw hrunning hexec hfaulted
    rcases exec_of_wellFormed s hw with ⟨u, hu, hstatus⟩ | ⟨cause, hraise⟩
    · obtain rfl : u = t := Host.Outcome.next.inj (hu.symm.trans hexec)
      rw [hrunning] at hstatus
      split at hstatus <;> rw [hfaulted] at hstatus <;> cases hstatus
    · obtain rfl : takeError (.outOfBounds cause) s = t := Host.Outcome.next.inj (hraise.symm.trans hexec)
      exact nofun

end Sys2Proof.Machine
end

section
/-! SUPPORT. A step at an HLT byte (40_fetch_execute.md R82). -/

namespace Sys2Proof.Machine

/-- Settles O23: the fetch of the one-byte HLT succeeds at every pc, and its execution only writes status. -/
theorem hltHalts : Obligations.HltHalts := by
  unfold Obligations.HltHalts
  constructor
  · exact exec_hlt
  · intro m s hrunning hopcode
    rw [stepWith_of_fetch_ok hrunning (fetch_hlt hopcode)]
    exact exec_hlt s

end Sys2Proof.Machine
end

section
/-! SUPPORT. The ALU as one register write (42_alu.md R89). -/

namespace Sys2Proof.Machine

/-- The frame of a register write: every other register and every other field keeps its value. -/
theorem State.setReg_frame (s : State) (d : RegIdx) (v : Byte) :
    (∀ j, j ≠ d → (s.setReg d v).reg j = s.reg j) ∧ (s.setReg d v).pc = s.pc ∧ (s.setReg d v).mem = s.mem ∧
      (s.setReg d v).out = s.out ∧ (s.setReg d v).status = s.status ∧ (s.setReg d v).fault = s.fault := by
  refine ⟨fun j hj => ?_, State.setReg_pc .., State.setReg_mem .., State.setReg_out .., State.setReg_status ..,
    State.setReg_fault ..⟩
  rw [State.setReg_reg, if_neg hj]

/-- Settles O32: the ALU writes the byte sum or product of the old values to the destination register alone, and the
sum and the product of bytes are modulo 256. -/
theorem aluAppliesOperation : Obligations.AluAppliesOperation := by
  unfold Obligations.AluAppliesOperation
  intro d r s
  refine ⟨⟨_, alu_add d r s, ?_, State.setReg_frame ..⟩, ⟨_, alu_mul d r s, ?_, State.setReg_frame ..⟩,
    fun tag => alu_other tag d r s⟩
  · rw [State.setReg_reg, if_pos rfl, BitVec.toNat_add]
  · rw [State.setReg_reg, if_pos rfl, BitVec.toNat_mul]

end Sys2Proof.Machine
end

section
/-! SUPPORT. The launch state (70_reset_and_hazards.md R131, R135): the state at reset, but for the memory, which the
image fills from address 0. -/

namespace Sys2Proof.Machine

/-- Memory with nothing in it but the image from address 0: byte `a` of the image, and 0 past its end (R131). -/
theorem Memory.read_load_image (image : List Byte) {a : Nat} (ha : a < Config.memSize) :
    Memory.read (Memory.load [] 0 image) a = image.getD a 0 := by
  rw [Memory.read_load, Memory.read_nil, Nat.zero_add, Nat.sub_zero]
  by_cases hin : a < image.length
  · rw [if_pos ⟨Nat.zero_le a, hin, ha⟩]
  · have hpast : image.getD a 0 = 0 := List.getD_eq_default image 0 (Nat.le_of_not_lt hin)
    rw [if_neg fun ⟨_, hlt, _⟩ => hin hlt, hpast]

/-- An image that fits in memory has a launch state (R132). -/
theorem launch_of_fits {image : List Byte} (h : image.length ≤ Config.memSize) :
    launch image = .next { State.reset with mem := Memory.load [] 0 image } := if_pos h

/-- Settles O1: the launch state's memory is the image loaded into empty memory, and that load, by induction over the
image in `Memory.read_load`, changes exactly the cells that the image has a byte for. -/
theorem launchPlacesImage : Obligations.LaunchPlacesImage := by
  unfold Obligations.LaunchPlacesImage
  intro image hfits
  exact ⟨_, launch_of_fits hfits, fun a ha => Memory.read_load_image image ha⟩

end Sys2Proof.Machine
end

section
/-! SUPPORT. The decoder and the encoder are inverse to each other (30_encoding.md R53, R54, R67). -/

namespace Sys2Proof.Machine

/-! ## Opcode bytes tell instructions apart -/

/-- The nine opcode bytes are distinct (R55), and so are the nine rows of R58's table, by the class, the ALU tag and
the memory access: each of the two fixes the other. -/
theorem opcode_eq_iff {m : OpcodeMap} {i j : Instr} :
    i.opcode m = j.opcode m ↔ i.cls = j.cls ∧ i.aluOp = j.aluOp ∧ i.access = j.access := by
  constructor
  · intro h
    have hrecord := record_of_opcode h
    exact ⟨congrArg DecodeRecord.cls hrecord, congrArg DecodeRecord.aluOp hrecord,
      congrArg DecodeRecord.access hrecord⟩
  · cases i <;> cases j <;> simp [Instr.cls, Instr.aluOp, Instr.access, Instr.opcode]

/-! ## The bytes of an instruction -/

/-- An instruction is encoded in as many bytes as its width says (R53). -/
@[simp] theorem length_encode (m : OpcodeMap) (i : Instr) : (encode m i).length = i.width := by
  cases i <;> rfl

/-- The first byte of an encoding is the opcode (R53). -/
@[simp] theorem getElem?_zero_encode (m : OpcodeMap) (i : Instr) : (encode m i)[0]? = some (i.opcode m) := by
  cases i <;> rfl

theorem width_pos (i : Instr) : 0 < i.width := by
  cases i <;> exact Nat.le_of_ble_eq_true rfl

/-- Byte k of a list of bytes is the byte k that the list has (R53). -/
theorem byteOf_eq_ok {bytes : List Byte} {k : Nat} {b : Byte} : byteOf bytes k = .ok b ↔ bytes[k]? = some b := by
  rw [byteOf]
  split <;> simp [*]

/-! ## What the decoder answers -/

/-- Two computations in a row succeed exactly where the first does and the second does on its value. -/
theorem bind_eq_ok {ε α β : Type} {x : Except ε α} {f : α → Except ε β} {r : β} :
    (x >>= f) = .ok r ↔ ∃ a, x = .ok a ∧ f a = .ok r := by
  cases x <;> simp [bind, Except.bind]

/-- A byte and what is supplied after it are the encoding of `i`, as far as the width of `i` reaches (R53). -/
def SuppliesEncoding {ε : Type} (m : OpcodeMap) (operand : Nat → Except ε Byte) (b0 : Byte) (i : Instr) : Prop :=
  b0 = i.opcode m ∧ ∀ k, 1 ≤ k → k < i.width → ∃ b, operand k = .ok b ∧ (encode m i)[k]? = some b

theorem suppliesEncoding_of_width_one {ε : Type} {m : OpcodeMap} {operand : Nat → Except ε Byte} (i : Instr)
    (hw : i.width = 1) : SuppliesEncoding m operand (i.opcode m) i := by
  refine ⟨rfl, fun k h1 hk => ?_⟩
  omega

theorem suppliesEncoding_of_width_two {ε : Type} {m : OpcodeMap} {operand : Nat → Except ε Byte} (i : Instr)
    (hw : i.width = 2) {b1 : Byte} (he : (encode m i)[1]? = some b1) (h1 : operand 1 = .ok b1) :
    SuppliesEncoding m operand (i.opcode m) i := by
  refine ⟨rfl, fun k hk1 hk => ?_⟩
  obtain rfl : k = 1 := by omega
  exact ⟨b1, h1, he⟩

theorem suppliesEncoding_of_width_three {ε : Type} {m : OpcodeMap} {operand : Nat → Except ε Byte} (i : Instr)
    (hw : i.width = 3) {b1 b2 : Byte} (he1 : (encode m i)[1]? = some b1) (he2 : (encode m i)[2]? = some b2)
    (h1 : operand 1 = .ok b1) (h2 : operand 2 = .ok b2) : SuppliesEncoding m operand (i.opcode m) i := by
  refine ⟨rfl, fun k hk1 hk => ?_⟩
  obtain rfl | rfl : k = 1 ∨ k = 2 := by omega
  · exact ⟨b1, h1, he1⟩
  · exact ⟨b2, h2, he2⟩

/-- The decoder answers exactly the instruction whose encoding it is supplied with (R57, R67). -/
theorem decodeWith_eq_ok {ε : Type} {m : OpcodeMap} {unknown : Byte → ε} {operand : Nat → Except ε Byte} {b0 : Byte}
    {i : Instr} : decodeWith m unknown operand b0 = .ok i ↔ SuppliesEncoding m operand b0 i := by
  constructor
  · intro h
    simp only [decodeWith] at h
    split_ifs at h
    all_goals
      subst b0
      simp only [bind_eq_ok, pure, Except.pure, Except.ok.injEq] at h
    · exact h ▸ suppliesEncoding_of_width_one .hlt rfl
    · obtain ⟨b1, h1, b2, h2, rfl⟩ := h
      exact suppliesEncoding_of_width_three (.ldi b1 b2) rfl rfl rfl h1 h2
    · obtain ⟨b1, h1, rfl⟩ := h
      exact suppliesEncoding_of_width_two (.prn b1) rfl rfl h1
    · obtain ⟨b1, h1, b2, h2, rfl⟩ := h
      exact suppliesEncoding_of_width_three (.add b1 b2) rfl rfl rfl h1 h2
    · obtain ⟨b1, h1, b2, h2, rfl⟩ := h
      exact suppliesEncoding_of_width_three (.mul b1 b2) rfl rfl rfl h1 h2
    · obtain ⟨b1, h1, rfl⟩ := h
      exact suppliesEncoding_of_width_two (.push b1) rfl rfl h1
    · obtain ⟨b1, h1, rfl⟩ := h
      exact suppliesEncoding_of_width_two (.pop b1) rfl rfl h1
    · obtain ⟨b1, h1, rfl⟩ := h
      exact suppliesEncoding_of_width_two (.call b1) rfl rfl h1
    · exact h ▸ suppliesEncoding_of_width_one .ret rfl
  · rintro ⟨rfl, hbytes⟩
    exact decodeWith_opcode m unknown operand i hbytes

/-- A list begins with an encoding where it has each byte of it. -/
theorem take_width_eq_encode_iff {m : OpcodeMap} {bytes : List Byte} {i : Instr} :
    bytes.take i.width = encode m i ↔ ∃ b0, byteOf bytes 0 = .ok b0 ∧ SuppliesEncoding m (byteOf bytes) b0 i := by
  simp only [SuppliesEncoding, byteOf_eq_ok]
  constructor
  · intro h
    have hbyte : ∀ k, k < i.width → bytes[k]? = (encode m i)[k]? := fun k hk => by
      rw [← h, List.getElem?_take_of_lt hk]
    refine ⟨i.opcode m, by rw [hbyte 0 (width_pos i), getElem?_zero_encode], rfl, fun k _ hk => ?_⟩
    rw [hbyte k hk]
    exact ⟨_, List.getElem?_eq_getElem (by rwa [length_encode]), List.getElem?_eq_getElem _⟩
  · rintro ⟨_, h0, rfl, hbytes⟩
    refine List.ext_getElem? fun k => ?_
    by_cases hk : k < i.width
    · rw [List.getElem?_take_of_lt hk]
      rcases Nat.eq_zero_or_pos k with rfl | hpos
      · rw [h0, getElem?_zero_encode]
      · obtain ⟨b, hb, he⟩ := hbytes k hpos hk
        rw [hb, he]
    · rw [List.getElem?_take_eq_none (by omega), List.getElem?_eq_none (by rw [length_encode]; omega)]

/-- The decoder on a list answers exactly the instruction whose encoding the list begins with, and the bytes after
it. -/
theorem decode_eq_ok {m : OpcodeMap} {bytes rest : List Byte} {i : Instr} :
    decode m bytes = .ok (i, rest) ↔ bytes = encode m i ++ rest := by
  have hsplit : bytes = encode m i ++ rest ↔ bytes.take i.width = encode m i ∧ rest = bytes.drop i.width := by
    constructor
    · rintro rfl
      exact ⟨List.take_left' (length_encode m i), (List.drop_left' (length_encode m i)).symm⟩
    · rintro ⟨htake, rfl⟩
      rw [← htake, List.take_append_drop]
  rw [hsplit, take_width_eq_encode_iff]
  simp only [decode, bind_eq_ok, decodeWith_eq_ok, pure, Except.pure, Except.ok.injEq, Prod.mk.injEq]
  constructor
  · rintro ⟨b0, h0, _, hs, rfl, hrest⟩
    exact ⟨⟨b0, h0, hs⟩, hrest.symm⟩
  · rintro ⟨⟨b0, h0, hs⟩, hrest⟩
    exact ⟨b0, h0, i, hs, rfl, hrest.symm⟩

/-- Settles O7: a list that begins with an instruction's encoding decodes to it. -/
theorem decodeInvertsEncode : Obligations.DecodeInvertsEncode := by
  unfold Obligations.DecodeInvertsEncode
  exact fun m i rest => decode_eq_ok.2 rfl

/-- Settles O8: the decoder answers an instruction only where the list begins with its encoding. -/
theorem decodedBytesAreTheEncoding : Obligations.DecodedBytesAreTheEncoding := by
  unfold Obligations.DecodedBytesAreTheEncoding
  exact fun m bytes rest i h => decode_eq_ok.1 h

/-- Settles O5: each of the nine words is the encoding of its instruction under the default map. -/
theorem defaultOpcodeWords : Obligations.DefaultOpcodeWords := by
  unfold Obligations.DefaultOpcodeWords
  intro b1 b2
  refine ⟨?_, ?_, ?_, ?_, ?_, ?_, ?_, ?_, ?_⟩ <;> exact decode_eq_ok.2 rfl

/-- Settles O6: the layout is read off the opcode byte of each of the nine instructions. -/
theorem defaultOpcodeLayout : Obligations.DefaultOpcodeLayout := by
  unfold Obligations.DefaultOpcodeLayout
  intro i
  cases i <;> simp only [Instr.opcode, Instr.cls, Instr.width, Instr.format, Format.width] <;> decide

end Sys2Proof.Machine
end

section
/-! SUPPORT. What an instruction and a step can answer, said once: the entry of the first error of its checks, or, where
none raises, one of the nine completed effects (40_fetch_execute.md R80, R83). -/

namespace Sys2Proof.Machine

variable {m : OpcodeMap} {s t : State} {i : Instr}

/-! ## The operand bytes of an instruction -/

/-- Every instruction names a byte that is no register, or is one of the nine forms on registers r0 to r7 (R76). -/
theorem operand_cases {motive : Instr → Prop}
    (invalid : ∀ i b, i.registerOperands.find? (fun b => !namesRegister b) = some b → motive i)
    (hlt : motive .hlt) (ldi : ∀ r v, motive (.ldi (regByte r) v)) (prn : ∀ r, motive (.prn (regByte r)))
    (add : ∀ a b, motive (.add (regByte a) (regByte b))) (mul : ∀ a b, motive (.mul (regByte a) (regByte b)))
    (push : ∀ r, motive (.push (regByte r))) (pop : ∀ r, motive (.pop (regByte r)))
    (call : ∀ r, motive (.call (regByte r))) (ret : motive .ret) (i : Instr) : motive i := by
  rcases hfind : i.registerOperands.find? (fun b => !namesRegister b) with - | b
  · have hwf : i.wellFormed = true := by
      rw [Instr.wellFormed, List.all_eq_true]
      simpa using List.find?_eq_none.1 hfind
    have hregs := (wellFormed_iff i).1 hwf
    cases i <;> simp only [Instr.registerOperands, List.forall_mem_cons, List.not_mem_nil, false_imp_iff,
      implies_true, and_true] at hregs
    case hlt => exact hlt
    case ldi => obtain ⟨r, rfl⟩ := hregs; exact ldi r _
    case prn => obtain ⟨r, rfl⟩ := hregs; exact prn r
    case add => obtain ⟨⟨a, rfl⟩, b, rfl⟩ := hregs; exact add a b
    case mul => obtain ⟨⟨a, rfl⟩, b, rfl⟩ := hregs; exact mul a b
    case push => obtain ⟨r, rfl⟩ := hregs; exact push r
    case pop => obtain ⟨r, rfl⟩ := hregs; exact pop r
    case call => obtain ⟨r, rfl⟩ := hregs; exact call r
    case ret => exact ret
  · exact invalid i b hfind

/-! ## The checks of an instruction -/

theorem regByte_eq_seven {r : RegIdx} : regByte r = 7 ↔ r = 7 := regByte_inj r 7

@[simp] theorem not_seven_lt_regByte (r : RegIdx) : ¬ 7 < (regByte r).toNat := by
  rw [regByte_toNat]
  omega

/-- The checks that an instruction makes once its register operands are read, in the order of R80. -/
def ownError (i : Instr) (s : State) : Option Raise :=
  match i with
  | .hlt => none
  | .ldi _ _ => if 255 < s.pc.toNat + 3 then some (.outOfBounds .fallthrough) else none
  | .prn _ => if 255 < s.pc.toNat + 2 then some (.outOfBounds .fallthrough) else none
  | .add _ _ => if 255 < s.pc.toNat + 3 then some (.outOfBounds .fallthrough) else none
  | .mul _ _ => if 255 < s.pc.toNat + 3 then some (.outOfBounds .fallthrough) else none
  | .push _ =>
    if s.sp = 0 then some (.outOfBounds .stackLow)
    else if 255 < s.pc.toNat + 2 then some (.outOfBounds .fallthrough) else none
  | .pop reg =>
    if (if reg = 7 then s.byteAt s.sp.toNat else s.sp) = 0xFF then some (.outOfBounds .stackHigh)
    else if 255 < s.pc.toNat + 2 then some (.outOfBounds .fallthrough) else none
  | .call _ =>
    if s.sp = 0 then some (.outOfBounds .stackLow)
    else if 255 < s.pc.toNat + 2 then some (.outOfBounds .retAddr) else none
  | .ret => if s.sp = 0xFF then some (.outOfBounds .stackHigh) else none

/-- The register checks of an instruction in byte order (R76), followed by its own checks. -/
def execError (i : Instr) (s : State) : Option Raise :=
  i.registerOperands.foldr (fun b rest => if 7 < b.toNat then some (.invalidRegister b) else rest) (ownError i s)

/-- The register checks report the first byte that names no register. -/
theorem execError_of_find? {b : Byte} (h : i.registerOperands.find? (fun b => !namesRegister b) = some b)
    (s : State) : execError i s = some (.invalidRegister b) := by
  rw [execError]
  generalize i.registerOperands = bytes at h
  induction bytes with
  | nil => cases h
  | cons a rest ih =>
    rcases find?_not_namesRegister_cons.1 h with ⟨rfl, hge⟩ | ⟨⟨r, rfl⟩, hrest⟩
    · rw [List.foldr_cons, if_pos (by omega)]
    · rw [List.foldr_cons, if_neg (not_seven_lt_regByte r), ih hrest]

/-- Where no register check raises, the instruction's own checks are left. -/
theorem execError_of_find?_none (h : i.registerOperands.find? (fun b => !namesRegister b) = none) (s : State) :
    execError i s = ownError i s := by
  cases i using operand_cases with
  | invalid i b hb => rw [h] at hb; cases hb
  | _ => simp [execError, Instr.registerOperands]

/-! ## What an instruction can answer -/

/-- `Completion s i t`: the instruction `i` runs in `s` to its end with no error, and leaves `t` (the effect columns of
41_register_io.md to 44_call_return.md, R82). -/
inductive Completion (s : State) : Instr → State → Prop
  | hlt : Completion s .hlt (s.setStatus .halted)
  | ldi (r : RegIdx) (v : Byte) (hpc : s.pc.toNat + 3 ≤ 255) :
    Completion s (.ldi (regByte r) v) ((s.setReg r v).setPc (s.pc + 3))
  | prn (r : RegIdx) (hpc : s.pc.toNat + 2 ≤ 255) :
    Completion s (.prn (regByte r)) ((s.emit (s.reg r)).setPc (s.pc + 2))
  | add (a b : RegIdx) (hpc : s.pc.toNat + 3 ≤ 255) :
    Completion s (.add (regByte a) (regByte b)) ((s.setReg a (s.reg a + s.reg b)).setPc (s.pc + 3))
  | mul (a b : RegIdx) (hpc : s.pc.toNat + 3 ≤ 255) :
    Completion s (.mul (regByte a) (regByte b)) ((s.setReg a (s.reg a * s.reg b)).setPc (s.pc + 3))
  | push (r : RegIdx) (hsp : s.sp ≠ 0) (hpc : s.pc.toNat + 2 ≤ 255) :
    Completion s (.push (regByte r)) (((s.setSp (s.sp - 1)).setMem
      (Memory.write s.mem (s.sp - 1).toNat (if r = 7 then s.sp - 1 else s.reg r))).setPc (s.pc + 2))
  | pop (r : RegIdx) (hsp : spBeforeIncrement s r ≠ 0xFF) (hpc : s.pc.toNat + 2 ≤ 255) :
    Completion s (.pop (regByte r))
      (((s.setReg r (Memory.read s.mem s.sp.toNat)).setSp (spBeforeIncrement s r + 1)).setPc (s.pc + 2))
  | call (r : RegIdx) (hsp : s.sp ≠ 0) (hpc : s.pc.toNat + 2 ≤ 255) :
    Completion s (.call (regByte r)) (((s.setSp (s.sp - 1)).setMem
      (Memory.write s.mem (s.sp - 1).toNat (s.pc + 2))).setPc (if r = 7 then s.sp - 1 else s.reg r))
  | ret (hsp : s.sp ≠ 0xFF) :
    Completion s .ret ((s.setSp (s.sp + 1)).setPc (Memory.read s.mem s.sp.toNat))

/-- A result that is the entry of the error `first`, or, where that is none, a completion of `i`. -/
def Answers (s : State) (i : Instr) (first : Option Raise) (result : StepResult) : Prop :=
  match first with
  | some e => result = .next (takeError e s)
  | none => ∃ t, result = .next t ∧ Completion s i t

theorem Answers.completes (h : Completion s i t) : Answers s i none (.next t) := ⟨t, rfl, h⟩

/-- A check that comes first raises, or leaves the answer to the checks after it. -/
theorem Answers.checked {p : Prop} [Decidable p] {e : Raise} {first : Option Raise} {result : StepResult}
    (h : ¬p → Answers s i first result) :
    Answers s i (if p then some e else first) (if p then .next (takeError e s) else result) := by
  split
  · exact rfl
  · exact h ‹_›

/-- The last check of an instruction raises, or the instruction completes. -/
theorem Answers.within {n : Nat} {e : Raise} (h : n ≤ 255 → Completion s i t) :
    Answers s i (if 255 < n then some e else none) (if n ≤ 255 then .next t else .next (takeError e s)) := by
  by_cases hn : n ≤ 255
  · rw [if_pos hn, if_neg (Nat.not_lt.2 hn)]
    exact .completes (h hn)
  · rw [if_neg hn, if_pos (Nat.not_le.1 hn)]
    exact rfl

/-- An instruction enters the first error of its checks, and completes where none raises (R80, R83). -/
theorem exec_answers (i : Instr) (s : State) : Answers s i (execError i s) (exec i s) := by
  rcases hfind : i.registerOperands.find? (fun b => !namesRegister b) with - | b
  · rw [execError_of_find?_none hfind]
    cases i using operand_cases with
    | invalid i b h => rw [hfind] at h; cases h
    | hlt => exact .completes .hlt
    | ldi r v => exact exec_ldi s r v ▸ .within fun hpc => .ldi r v hpc
    | prn r => exact exec_prn s r ▸ .within fun hpc => .prn r hpc
    | add a b => exact exec_add s a b ▸ .within fun hpc => .add a b hpc
    | mul a b => exact exec_mul s a b ▸ .within fun hpc => .mul a b hpc
    | push r => exact exec_push s r ▸ .checked fun hsp => .within fun hpc => .push r hsp hpc
    | pop r =>
      simp only [ownError, regByte_eq_seven]
      exact exec_pop s r ▸ .checked fun hsp => .within fun hpc => .pop r hsp hpc
    | call r => exact exec_call s r ▸ .checked fun hsp => .within fun hpc => .call r hsp hpc
    | ret => exact exec_ret s ▸ .checked fun hsp => .completes (.ret hsp)
  · rw [execError_of_find? hfind]
    exact exec_of_find?_invalid hfind

/-- The two things that an instruction can answer. -/
theorem exec_cases (i : Instr) (s : State) :
    (∃ e, execError i s = some e ∧ exec i s = .next (takeError e s)) ∨
      execError i s = none ∧ ∃ t, exec i s = .next t ∧ Completion s i t := by
  have h := exec_answers i s
  cases hfirst : execError i s <;> rw [hfirst] at h
  · exact .inr ⟨rfl, h⟩
  · exact .inl ⟨_, rfl, h⟩

/-- What an instruction has answered is the entry of the first error of its checks, or its completion. -/
theorem exec_inv (h : exec i s = .next t) : (∃ e, execError i s = some e ∧ t = takeError e s) ∨ Completion s i t := by
  rcases exec_cases i s with ⟨e, he, hexec⟩ | ⟨-, u, hexec, hc⟩
  · exact .inl ⟨e, he, Host.Outcome.next.inj (h.symm.trans hexec)⟩
  · obtain rfl : t = u := Host.Outcome.next.inj (h.symm.trans hexec)
    exact .inr hc

/-- An instruction whose checks raise enters the first error. -/
theorem exec_of_execError {e : Raise} (h : execError i s = some e) : exec i s = .next (takeError e s) := by
  have hans := exec_answers i s
  rwa [h] at hans

/-- An instruction's own checks are bounds, and the end-of-memory check is an advancing instruction's (R79, R114). -/
theorem ownError_inv {e : Raise} (h : ownError i s = some e) :
    ∃ cause, e = .outOfBounds cause ∧ (cause = .fallthrough → i.advances = true) := by
  cases i with
  | hlt => cases h
  | call reg =>
    simp only [ownError] at h
    split_ifs at h <;> cases h <;> exact ⟨_, rfl, nofun⟩
  | ret =>
    simp only [ownError] at h
    split_ifs at h
    cases h
    exact ⟨_, rfl, nofun⟩
  | _ =>
    simp only [ownError] at h
    split_ifs at h <;> cases h <;> exact ⟨_, rfl, fun _ => rfl⟩

/-- The checks of an instruction raise InvalidRegister or out of bounds. -/
theorem execError_inv {e : Raise} (h : execError i s = some e) :
    (∃ b, e = .invalidRegister b) ∨ ∃ cause, e = .outOfBounds cause ∧ (cause = .fallthrough → i.advances = true) := by
  rcases hfind : i.registerOperands.find? (fun b => !namesRegister b) with - | b
  · rw [execError_of_find?_none hfind] at h
    exact .inr (ownError_inv h)
  · rw [execError_of_find? hfind] at h
    exact .inl ⟨b, (Option.some.inj h).symm⟩

/-- No check of an instruction is one for the ALU's tag: ADD and MUL hand it their own (42_alu.md R90). -/
theorem execError_kind {e : Raise} (h : execError i s = some e) : e.kind ≠ .unsupportedAluOperation := by
  rcases execError_inv h with ⟨b, rfl⟩ | ⟨cause, rfl, -⟩ <;> exact nofun

/-- An instruction that meets the conditions of a completion answers it. -/
theorem Completion.exec_eq (h : Completion s i t) : exec i s = .next t := by
  cases h with
  | hlt => exact exec_hlt s
  | ldi r v hpc => rw [exec_ldi, if_pos hpc]
  | prn r hpc => rw [exec_prn, if_pos hpc]
  | add a b hpc => rw [exec_add, if_pos hpc]
  | mul a b hpc => rw [exec_mul, if_pos hpc]
  | push r hsp hpc => rw [exec_push, if_neg hsp, if_pos hpc]
  | pop r hsp hpc => rw [exec_pop, if_neg hsp, if_pos hpc]
  | call r hsp hpc => rw [exec_call, if_neg hsp, if_pos hpc]
  | ret hsp => rw [exec_ret, if_neg hsp]

/-! ## What a completion changes -/

/-- Only HLT writes status (40_fetch_execute.md R82). -/
theorem Completion.status_eq (h : Completion s i t) : t.status = if i = .hlt then .halted else s.status := by
  cases h <;> rfl

/-- Completing is no error (10_state.md R29). -/
theorem Completion.status_ne_faulted (h : Completion s i t) (hs : s.status = .running) : t.status ≠ .faulted := by
  rw [h.status_eq, hs]
  split <;> exact nofun

/-- Only an error writes the fault record (10_state.md R30). -/
theorem Completion.fault_eq (h : Completion s i t) : t.fault = s.fault := by
  cases h <;> rfl

/-- Only PRN emits (41_register_io.md R86). -/
theorem Completion.out_eq (h : Completion s i t) (hi : ∀ r, i ≠ .prn (regByte r)) : t.out = s.out := by
  cases h with
  | prn r hpc => exact absurd rfl (hi r)
  | _ => rfl

/-- PRN emits its register's value (R86, R87). -/
theorem Completion.out_prn {r : RegIdx} (h : Completion s (.prn (regByte r)) t) : t.out = s.out ++ [s.reg r] := by
  generalize hi : Instr.prn (regByte r) = i at h
  cases h with
  | prn j hpc =>
    obtain rfl : r = j := (regByte_inj r j).1 (Instr.prn.inj hi)
    rfl
  | _ => cases hi

/-- Only PUSH and CALL write memory, one byte at the decremented SP (20_memory.md R41). -/
theorem Completion.mem_cases (h : Completion s i t) :
    t.mem = s.mem ∨ ∃ v, t.mem = Memory.write s.mem (s.sp - 1).toNat v ∧ s.sp ≠ 0 ∧
      ∃ r : RegIdx, i = .push (regByte r) ∨ i = .call (regByte r) := by
  cases h with
  | push r hsp hpc => exact .inr ⟨_, rfl, hsp, r, .inl rfl⟩
  | call r hsp hpc => exact .inr ⟨_, rfl, hsp, r, .inr rfl⟩
  | _ => exact .inl rfl

/-! ## What a step can answer -/

/-- A RUNNING step whose fetch raises enters that error (R74, R75). -/
theorem stepWith_of_fetch_error {e : Raise} (hs : s.status = .running) (hf : fetch m s = .error e) :
    stepWith m s = .next (takeError e s) := by
  simp only [stepWith, hs, hf, commit_error]

/-- Outside RUNNING no step is enabled (R72). -/
theorem stepWith_of_not_running (m : OpcodeMap) (hs : s.status ≠ .running) : ∃ f, stepWith m s = .fault f := by
  cases h : s.status with
  | running => exact absurd h hs
  | halted => exact ⟨.halted, by simp only [stepWith, stoppedStep, h]⟩
  | faulted => exact ⟨.faulted s.fault, by simp only [stepWith, stoppedStep, h]⟩

/-- What a RUNNING step answers: an error entry, not one of the ALU's, or the completion of the fetched
instruction. -/
theorem stepWith_cases (m : OpcodeMap) (hs : s.status = .running) :
    (∃ e : Raise, e.kind ≠ .unsupportedAluOperation ∧ stepWith m s = .next (takeError e s)) ∨
      ∃ i t, fetch m s = .ok i ∧ stepWith m s = .next t ∧ Completion s i t := by
  rcases fetch_cases m s with ⟨-, hf⟩ | ⟨i, -, ⟨-, hf⟩ | ⟨-, hf, -⟩⟩
  · exact .inl ⟨.unknownOpcode _, nofun, stepWith_of_fetch_error hs hf⟩
  · exact .inl ⟨.outOfBounds .fetch, nofun, stepWith_of_fetch_error hs hf⟩
  · rw [stepWith_of_fetch_ok hs hf]
    rcases exec_cases i s with ⟨e, he, hexec⟩ | ⟨-, t, ht, hc⟩
    · exact .inl ⟨e, execError_kind he, hexec⟩
    · exact .inr ⟨i, t, hf, ht, hc⟩

/-- A step that answers a next state began in RUNNING (R72). -/
theorem running_of_stepWith (h : stepWith m s = .next t) : s.status = .running := by
  by_contra hs
  obtain ⟨f, hf⟩ := stepWith_of_not_running m hs
  rw [h] at hf
  cases hf

/-- The next state of a step is an error entry or the completion of the fetched instruction. -/
theorem stepWith_inv (h : stepWith m s = .next t) :
    (∃ e : Raise, e.kind ≠ .unsupportedAluOperation ∧ t = takeError e s) ∨ ∃ i, fetch m s = .ok i ∧ Completion s i t := by
  rcases stepWith_cases m (running_of_stepWith h) with ⟨e, he, hstep⟩ | ⟨i, u, hf, hstep, hc⟩
  · exact .inl ⟨e, he, Host.Outcome.next.inj (h.symm.trans hstep)⟩
  · obtain rfl : t = u := Host.Outcome.next.inj (h.symm.trans hstep)
    exact .inr ⟨i, hf, hc⟩

/-- A step ends in FAULTED exactly by an error entry. -/
theorem faulted_inv (h : stepWith m s = .next t) (hfaulted : t.status = .faulted) :
    ∃ e : Raise, e.kind ≠ .unsupportedAluOperation ∧ t = takeError e s := by
  rcases stepWith_inv h with herr | ⟨i, -, hc⟩
  · exact herr
  · exact absurd hfaulted (hc.status_ne_faulted (running_of_stepWith h))

/-- A step that ends in another status completed the instruction it fetched. -/
theorem completion_of_stepWith (h : stepWith m s = .next t) (hf : fetch m s = .ok i) (hok : t.status ≠ .faulted) :
    Completion s i t := by
  rcases stepWith_inv h with ⟨e, -, rfl⟩ | ⟨j, hj, hc⟩
  · exact absurd (takeError_status s e) hok
  · obtain rfl : i = j := Except.ok.inj (hf.symm.trans hj)
    exact hc

/-! ## Statements about every step -/

/-- Settles O13: a RUNNING step answers an error entry or a completion, and outside RUNNING the step is stopped. -/
theorem stepEnabledExactlyWhileRunning : Obligations.StepEnabledExactlyWhileRunning := by
  unfold Obligations.StepEnabledExactlyWhileRunning
  intro m s
  refine ⟨fun ⟨t, h⟩ => running_of_stepWith h, fun hs => ?_⟩
  rcases stepWith_cases m hs with ⟨e, -, h⟩ | ⟨i, t, -, h, -⟩
  · exact ⟨_, h⟩
  · exact ⟨t, h⟩

/-- Settles O15: a FAULTED next state is the error entry, which writes status and the record alone. -/
theorem errorsArePrecise : Obligations.ErrorsArePrecise := by
  unfold Obligations.ErrorsArePrecise
  intro m s t h hfaulted
  obtain ⟨e, -, rfl⟩ := faulted_inv h hfaulted
  exact ⟨takeError_regs .., takeError_mem .., takeError_pc .., takeError_out .., rfl⟩

/-- Settles O22: neither the fetch nor an instruction raises the ALU's error. -/
theorem aluErrorIsUnreachable : Obligations.AluErrorIsUnreachable := by
  unfold Obligations.AluErrorIsUnreachable
  intro m s t h hfaulted
  obtain ⟨e, he, rfl⟩ := faulted_inv h hfaulted
  exact he

/-- Settles O36: an error entry leaves the output, and of the completions PRN's alone appends to it. -/
theorem onlyPrnEmits : Obligations.OnlyPrnEmits := by
  unfold Obligations.OnlyPrnEmits
  intro m s t h
  constructor
  · intro hout
    rcases stepWith_inv h with ⟨e, -, rfl⟩ | ⟨i, hf, hc⟩
    · exact absurd (takeError_out s e) hout
    · by_contra hprn
      exact hout (hc.out_eq fun r hr => hprn ⟨r, hr ▸ hf⟩)
  · intro r hf
    split
    · obtain ⟨e, -, rfl⟩ := faulted_inv h ‹_›
      exact takeError_out s e
    · exact (completion_of_stepWith h hf ‹_›).out_prn

/-- An address plus a width does not wrap where the sum is an address (R78). -/
theorem toNat_add_of_le {p : Byte} {w : Nat} (h : p.toNat + w ≤ 255) : (p + BitVec.ofNat 8 w).toNat = p.toNat + w := by
  rw [BitVec.toNat_add, BitVec.toNat_ofNat]
  omega

/-- Where each completed instruction leaves pc (R78, 44_call_return.md R105, R107). -/
theorem Completion.pc_eq (h : Completion s i t) :
    (i.advances = true → t.pc.toNat = s.pc.toNat + i.width) ∧ (i = .hlt → t.pc = s.pc) ∧
      (∀ r : RegIdx, i = .call (regByte r) → t.pc = if r = 7 then s.sp - 1 else s.reg r) ∧
      (i = .ret → t.pc = s.byteAt s.sp.toNat) := by
  cases h with
  | hlt => exact ⟨nofun, fun _ => rfl, nofun, nofun⟩
  | ldi _ _ hpc | prn _ hpc | add _ _ hpc | mul _ _ hpc | push _ _ hpc | pop _ _ hpc =>
    exact ⟨fun _ => toNat_add_of_le hpc, nofun, nofun, nofun⟩
  | call r hsp hpc =>
    refine ⟨nofun, nofun, fun j hj => ?_, nofun⟩
    obtain rfl : r = j := (regByte_inj r j).1 (Instr.call.inj hj)
    rfl
  | ret hsp => exact ⟨nofun, nofun, nofun, fun _ => rfl⟩

/-- Settles O33: an error entry leaves pc, and each completion leaves it where `Completion.pc_eq` says. -/
theorem pcUpdate : Obligations.PcUpdate := by
  unfold Obligations.PcUpdate
  intro m s t h
  constructor
  · intro hfaulted
    obtain ⟨e, -, rfl⟩ := faulted_inv h hfaulted
    exact takeError_pc s e
  · exact fun i hf hok => (completion_of_stepWith h hf hok).pc_eq

end Sys2Proof.Machine
end

section
/-! SUPPORT. The step read as every check first and then one commit (00_scope.md section 5, 40_fetch_execute.md section
4), and the status that this gives a step (40_fetch_execute.md section 1). -/

namespace Sys2Proof.Machine

variable {m : OpcodeMap} {s t : State} {i : Instr}

/-! ## Which instruction an opcode byte is of -/

@[simp] theorem opcode_eq_hlt : i.opcode m = m.hlt ↔ i = .hlt := by
  rw [show m.hlt = Instr.hlt.opcode m from rfl, opcode_eq_iff]
  cases i <;> simp [Instr.cls, Instr.aluOp, Instr.access]

@[simp] theorem opcode_eq_ldi : i.opcode m = m.ldi ↔ ∃ r v, i = .ldi r v := by
  rw [show m.ldi = (Instr.ldi 0 0).opcode m from rfl, opcode_eq_iff]
  cases i <;> simp [Instr.cls, Instr.aluOp, Instr.access]

@[simp] theorem opcode_eq_prn : i.opcode m = m.prn ↔ ∃ r, i = .prn r := by
  rw [show m.prn = (Instr.prn 0).opcode m from rfl, opcode_eq_iff]
  cases i <;> simp [Instr.cls, Instr.aluOp, Instr.access]

@[simp] theorem opcode_eq_add : i.opcode m = m.add ↔ ∃ a b, i = .add a b := by
  rw [show m.add = (Instr.add 0 0).opcode m from rfl, opcode_eq_iff]
  cases i <;> simp [Instr.cls, Instr.aluOp, Instr.access]

@[simp] theorem opcode_eq_mul : i.opcode m = m.mul ↔ ∃ a b, i = .mul a b := by
  rw [show m.mul = (Instr.mul 0 0).opcode m from rfl, opcode_eq_iff]
  cases i <;> simp [Instr.cls, Instr.aluOp, Instr.access]

@[simp] theorem opcode_eq_push : i.opcode m = m.push ↔ ∃ r, i = .push r := by
  rw [show m.push = (Instr.push 0).opcode m from rfl, opcode_eq_iff]
  cases i <;> simp [Instr.cls, Instr.aluOp, Instr.access]

@[simp] theorem opcode_eq_pop : i.opcode m = m.pop ↔ ∃ r, i = .pop r := by
  rw [show m.pop = (Instr.pop 0).opcode m from rfl, opcode_eq_iff]
  cases i <;> simp [Instr.cls, Instr.aluOp, Instr.access]

@[simp] theorem opcode_eq_call : i.opcode m = m.call ↔ ∃ r, i = .call r := by
  rw [show m.call = (Instr.call 0).opcode m from rfl, opcode_eq_iff]
  cases i <;> simp [Instr.cls, Instr.aluOp, Instr.access]

@[simp] theorem opcode_eq_ret : i.opcode m = m.ret ↔ i = .ret := by
  rw [show m.ret = Instr.ret.opcode m from rfl, opcode_eq_iff]
  cases i <;> simp [Instr.cls, Instr.aluOp, Instr.access]

/-! ## The fetched instruction -/

/-- The bytes at pc are those of the instruction that the fetch answers (R75). -/
theorem codeByte_of_fetch (hf : fetch m s = .ok i) {k : Nat} {b : Byte} (he : (encode m i)[k]? = some b) :
    s.codeByte k = b := by
  have hk : k < i.width := by
    rw [← length_encode m]
    exact (List.getElem?_eq_some_iff.1 he).1
  exact Option.some.inj (((fetch_eq_ok hf).2 k hk).symm.trans he)

theorem opcode_of_fetch (hf : fetch m s = .ok i) : s.codeByte 0 = i.opcode m :=
  codeByte_of_fetch hf (getElem?_zero_encode m i)

/-- The register that a fetched operand byte names (R60). -/
theorem operandReg_of_fetch (hf : fetch m s = .ok i) {k : Nat} {r : RegIdx} (he : (encode m i)[k]? = some (regByte r)) :
    s.operandReg k = r := by
  rw [State.operandReg, codeByte_of_fetch hf he, regByte_toNat, Fin.ofNat_eq_cast, Fin.cast_val_eq_self]

/-! ## The first error -/

/-- A byte outside the map is the first error (R80). -/
theorem firstError_of_unknown (h : s.codeByte 0 ∉ m.values) :
    firstError m s = some (.unknownOpcode (s.codeByte 0)) := by
  simp only [firstError, errorChecks, firstRaised, h, not_false_eq_true, decide_true, if_true]

theorem opcode_mem_values (m : OpcodeMap) (i : Instr) : i.opcode m ∈ m.values := (mem_values m _).2 ⟨i, rfl⟩

/-- An operand byte past the end of memory is the next (R80). -/
theorem firstError_of_pastEnd (h0 : s.codeByte 0 = i.opcode m) (hw : 256 < s.pc.toNat + i.width) :
    firstError m s = some (.outOfBounds .fetch) := by
  have hend : 255 < s.pc.toNat + (i.width - 1) := by omega
  simp only [firstError, errorChecks, firstRaised, h0, opcode_mem_values, widthOf_opcode, hend, not_true_eq_false,
    decide_false, decide_true, Bool.false_eq_true, if_false, if_true]

/-- Once the instruction is fetched, the first error is the first of the checks that the instruction makes (R80). -/
theorem firstError_of_fetch (hf : fetch m s = .ok i) : firstError m s = execError i s := by
  have hinside : ¬ 255 < s.pc.toNat + (i.width - 1) := by
    have := (fetch_eq_ok hf).1
    have := width_pos i
    omega
  have hbyte : ∀ k b, (encode m i)[k]? = some b → s.codeByte k = b := fun k b => codeByte_of_fetch hf
  simp only [firstError, errorChecks, firstRaised, opcode_of_fetch hf, opcode_mem_values, widthOf_opcode, hinside,
    OpcodeMap.byteOneRegister, OpcodeMap.advancing, List.mem_cons, List.not_mem_nil, opcode_eq_ldi, opcode_eq_prn,
    opcode_eq_add, opcode_eq_mul, opcode_eq_push, opcode_eq_pop, opcode_eq_call, opcode_eq_ret, execError]
  cases i with
  | hlt => simp [Instr.registerOperands, ownError]
  | ldi r v => simp [Instr.registerOperands, ownError, hbyte 1 r rfl, Instr.width, Instr.format, Format.width]
  | prn r => simp [Instr.registerOperands, ownError, hbyte 1 r rfl, Instr.width, Instr.format, Format.width]
  | add a b =>
    simp [Instr.registerOperands, ownError, hbyte 1 a rfl, hbyte 2 b rfl, Instr.width, Instr.format, Format.width]
  | mul a b =>
    simp [Instr.registerOperands, ownError, hbyte 1 a rfl, hbyte 2 b rfl, Instr.width, Instr.format, Format.width]
  | push r => simp [Instr.registerOperands, ownError, hbyte 1 r rfl, Instr.width, Instr.format, Format.width]
  | pop r =>
    simp [Instr.registerOperands, ownError, State.spToIncrement, hbyte 1 r rfl, Instr.width, Instr.format, Format.width]
  | call r => simp [Instr.registerOperands, ownError, hbyte 1 r rfl]
  | ret => simp [Instr.registerOperands, ownError]

/-! ## The commit -/

/-- Where an instruction completes, the effect with no check left in it is what it leaves (00_scope.md section 5). -/
theorem Completion.uncheckedEffect_eq (h : Completion s i t) (hf : fetch m s = .ok i) : uncheckedEffect m s = t := by
  have h0 := opcode_of_fetch hf
  have hreg : ∀ k r, (encode m i)[k]? = some (regByte r) → s.operandReg k = r := fun k r => operandReg_of_fetch hf
  cases h with
  | hlt => simp [uncheckedEffect, h0]; rfl
  | ldi r v hpc =>
    have h2 : s.codeByte 2 = v := codeByte_of_fetch hf rfl
    simp [uncheckedEffect, h0, hreg 1 r rfl, h2]; rfl
  | prn r hpc => simp [uncheckedEffect, h0, hreg 1 r rfl]; rfl
  | add a b hpc => simp [uncheckedEffect, h0, hreg 1 a rfl, hreg 2 b rfl]; rfl
  | mul a b hpc => simp [uncheckedEffect, h0, hreg 1 a rfl, hreg 2 b rfl]; rfl
  | push r hsp hpc => simp [uncheckedEffect, h0, hreg 1 r rfl]; rfl
  | pop r hsp hpc => simp [uncheckedEffect, h0, hreg 1 r rfl, spBeforeIncrement]; rfl
  | call r hsp hpc => simp [uncheckedEffect, h0, hreg 1 r rfl]; rfl
  | ret hsp => simp [uncheckedEffect, h0]; rfl

/-! ## The two readings of a step -/

/-- The result of a step from `s` whose first error is `first`, if it has one, and whose effect is else `effect`. -/
def answer (s : State) (first : Option Raise) (effect : State) : StepResult :=
  match first with
  | some e => .next (takeError e s)
  | none => .next effect

/-- An instruction raises its first error, and where it has none commits the unchecked effect. -/
theorem exec_eq_answer (hf : fetch m s = .ok i) : exec i s = answer s (execError i s) (uncheckedEffect m s) := by
  rcases exec_cases i s with ⟨e, he, hexec⟩ | ⟨hnone, t, hexec, hc⟩
  · rw [he, hexec]
    rfl
  · rw [hnone, hexec, hc.uncheckedEffect_eq hf]
    rfl

/-- A RUNNING step raises the first error, and where there is none commits the unchecked effect (R80, R83). -/
theorem stepWith_eq_answer (m : OpcodeMap) (hs : s.status = .running) :
    stepWith m s = answer s (firstError m s) (uncheckedEffect m s) := by
  rcases fetch_cases m s with ⟨h0, hf⟩ | ⟨i, h0, ⟨hw, hf⟩ | ⟨-, hf, -⟩⟩
  · rw [stepWith_of_fetch_error hs hf, firstError_of_unknown h0]; rfl
  · rw [stepWith_of_fetch_error hs hf, firstError_of_pastEnd h0 hw]; rfl
  · rw [stepWith_of_fetch_ok hs hf, firstError_of_fetch hf, exec_eq_answer hf]

/-- Settles O16: the fetch's errors come first, and then the fetched instruction's answer is read in the same way. -/
theorem stepIsChecksThenCommit : Obligations.StepIsChecksThenCommit := by
  unfold Obligations.StepIsChecksThenCommit
  intro m s hs
  rw [stepWith_eq_answer m hs]
  cases firstError m s <;> rfl

/-! ## The status after a step -/

/-- The unchecked effect is never FAULTED where the step began in RUNNING. -/
theorem uncheckedEffect_status_ne_faulted (m : OpcodeMap) (hs : s.status = .running) :
    (uncheckedEffect m s).status ≠ .faulted := by
  have hstatus : (uncheckedEffect m s).status = if s.codeByte 0 = m.hlt then .halted else s.status := by
    simp only [uncheckedEffect]
    split_ifs <;> rfl
  rw [hstatus, hs]
  split <;> exact nofun

/-- A step that answers a next state has raised its first error, or it had none and has completed the instruction that
it fetched. -/
theorem stepWith_firstError_cases (h : stepWith m s = .next t) :
    (∃ e, firstError m s = some e ∧ t = takeError e s) ∨
      firstError m s = none ∧ ∃ i, fetch m s = .ok i ∧ Completion s i t := by
  have hs := running_of_stepWith h
  have hans := h.symm.trans (stepWith_eq_answer m hs)
  rcases hfirst : firstError m s with - | e
  · rw [hfirst] at hans
    obtain rfl : t = uncheckedEffect m s := Host.Outcome.next.inj hans
    rcases stepWith_inv h with ⟨e, -, herr⟩ | hc
    · exact absurd (congrArg State.status herr) (uncheckedEffect_status_ne_faulted m hs)
    · exact .inr ⟨rfl, hc⟩
  · rw [hfirst] at hans
    exact .inl ⟨e, rfl, Host.Outcome.next.inj hans⟩

/-- HLT raises nothing (R82). -/
theorem firstError_of_hlt (hf : fetch m s = .ok .hlt) : firstError m s = none := firstError_of_fetch hf

/-- Settles O14: a step has raised its first error, or it had none and the fetched instruction's completion gives the
status. -/
theorem statusTransitions : Obligations.StatusTransitions := by
  unfold Obligations.StatusTransitions
  refine ⟨rfl, fun m s t h => ?_⟩
  rcases stepWith_firstError_cases h with ⟨e, hfirst, rfl⟩ | ⟨hfirst, i, hf, hc⟩
  · have hnothlt : fetch m s ≠ .ok .hlt := fun hf => by
      rw [firstError_of_hlt hf] at hfirst
      cases hfirst
    simp [hfirst, hnothlt]
  · rw [hc.status_eq, running_of_stepWith h, hfirst, hf]
    by_cases hi : i = .hlt <;> simp [hi]

end Sys2Proof.Machine
end

section
/-! SUPPORT. Bytes that are no instruction: past the end of memory (40_fetch_execute.md section 2) or outside the map
(30_encoding.md section 3). -/

namespace Sys2Proof.Machine

variable {m : OpcodeMap}

/-- Settles O12: where the width that the opcode byte fixes reaches past 255, the fetch raises. -/
theorem operandFetchPastEndRaises : Obligations.OperandFetchPastEndRaises := by
  unfold Obligations.OperandFetchPastEndRaises
  intro m s hs hmem hw
  obtain ⟨i, hi⟩ := (mem_values m _).1 hmem
  rw [← hi, widthOf_opcode] at hw
  rw [stepWith_of_fetch_error hs (fetch_pastEnd i hi.symm hw)]
  rfl

/-- The bytes outside the default map (R59): the gaps between the nine default opcodes. -/
theorem not_mem_defaultOpcodeMap_values (b : Byte) : b ∉ defaultOpcodeMap.values ↔
    b = 0x00 ∨ (0x02 ≤ b ∧ b ≤ 0x10) ∨ (0x12 ≤ b ∧ b ≤ 0x44) ∨ (0x48 ≤ b ∧ b ≤ 0x4F) ∨ (0x51 ≤ b ∧ b ≤ 0x81) ∨
      (0x83 ≤ b ∧ b ≤ 0x9F) ∨ b = 0xA1 ∨ 0xA3 ≤ b := by
  simp only [OpcodeMap.values, defaultOpcodeMap, List.mem_cons, List.not_mem_nil, or_false]
  bv_omega

/-- Of the 256 bytes, 247 are outside the default map (R59). -/
theorem count_not_mem_defaultOpcodeMap_values :
    ((List.range 256).filter fun n => decide (BitVec.ofNat 8 n ∉ defaultOpcodeMap.values)).length = 247 := by
  decide +kernel

/-- A list that begins with a byte outside the map decodes to nothing (R59). -/
theorem decode_unknown {b : Byte} (hb : b ∉ m.values) (rest : List Byte) :
    decode m (b :: rest) = .error (.unknownOpcode b) := by
  have h0 : byteOf (b :: rest) 0 = .ok b := rfl
  simp only [decode, h0, bind, Except.bind, decodeWith_unknown _ _ hb]

/-- Settles O9: a byte outside the map is an error of the decoder, of the fetch, and so of the step. -/
theorem opcodeOutsideMapIsIllegal : Obligations.OpcodeOutsideMapIsIllegal := by
  unfold Obligations.OpcodeOutsideMapIsIllegal
  refine ⟨fun m b hb => ⟨decode_unknown hb, fun s hs hbyte => ?_⟩, not_mem_defaultOpcodeMap_values,
    count_not_mem_defaultOpcodeMap_values⟩
  obtain rfl : s.codeByte 0 = b := hbyte
  exact ⟨_, stepWith_of_fetch_error hs (fetch_unknown hb), rfl, rfl, rfl, rfl, rfl, rfl⟩

end Sys2Proof.Machine
end

section
/-! SUPPORT. The invariant of every step and of the launch (40_fetch_execute.md section 4, 60_exceptions.md section 2,
10_state.md sections 3 and 5). -/

namespace Sys2Proof.Machine

variable {m : OpcodeMap} {s t : State} {i : Instr}

/-- The error conditions read the registers, memory and pc alone, and an error entry leaves those (R117). -/
theorem firstError_takeError (m : OpcodeMap) (e : Raise) (s : State) :
    firstError m (takeError e s) = firstError m s := rfl

/-- An error entry meets the invariant where its error is the first. -/
theorem State.Inv.takeError {e : Raise} (h : s.Inv m) (he : firstError m s = some e) : (takeError e s).Inv m where
  memCanonical := h.memCanonical
  faultExplained _ := ⟨e, (firstError_takeError m e s).trans he, rfl⟩
  faultUnwritten hne := absurd rfl hne
  haltedAtHlt hhalted := by cases hhalted

/-- A completion writes memory through `Memory.write`, which keeps the canonical form (log entry 4). -/
theorem Completion.wf_mem (h : Completion s i t) (hmem : Memory.wf s.mem = true) : Memory.wf t.mem = true := by
  rcases h.mem_cases with hsame | ⟨v, hwrite, -⟩
  · rw [hsame, hmem]
  · rw [hwrite]
    exact Memory.wf_write v hmem (s.sp - 1).isLt

/-- A completion of a RUNNING step that leaves HALTED is that of HLT, which leaves pc and memory (R82). -/
theorem Completion.codeByte_of_halted (h : Completion s i t) (hs : s.status = .running) (ht : t.status = .halted) :
    i = .hlt ∧ t.codeByte 0 = s.codeByte 0 := by
  cases h with
  | hlt => exact ⟨rfl, rfl⟩
  | _ => exact absurd (hs.symm.trans ht) nofun

/-- The completion of the fetched instruction in RUNNING meets the invariant. -/
theorem Completion.inv (h : s.Inv m) (hs : s.status = .running) (hf : fetch m s = .ok i) (hc : Completion s i t) :
    t.Inv m where
  memCanonical := hc.wf_mem h.memCanonical
  faultExplained hfaulted := absurd hfaulted (hc.status_ne_faulted hs)
  faultUnwritten _ := hc.fault_eq.trans (h.faultUnwritten (by rw [hs]; exact nofun))
  haltedAtHlt hhalted := by
    obtain ⟨rfl, hbyte⟩ := hc.codeByte_of_halted hs hhalted
    rw [hbyte]
    exact opcode_of_fetch hf

/-- Settles O41: a step has raised its first error or completed what it fetched, and each meets the invariant. -/
theorem stepKeepsInvariant : Obligations.StepKeepsInvariant := by
  unfold Obligations.StepKeepsInvariant
  intro m s t hinv h
  rcases stepWith_firstError_cases h with ⟨e, hfirst, rfl⟩ | ⟨-, i, hf, hc⟩
  · exact hinv.takeError hfirst
  · exact hc.inv hinv (running_of_stepWith h) hf

/-- A state in RUNNING with canonical memory and the record's reset value meets the invariant. -/
theorem State.inv_of_running (m : OpcodeMap) (hmem : Memory.wf s.mem = true) (hs : s.status = .running)
    (hfault : s.fault = FaultRecord.reset) : s.Inv m where
  memCanonical := hmem
  faultExplained hfaulted := by rw [hs] at hfaulted; cases hfaulted
  faultUnwritten _ := hfault
  haltedAtHlt hhalted := by rw [hs] at hhalted; cases hhalted

/-- Settles O42: reset, launch and the reset input leave RUNNING and the record's reset value, and loading an image
keeps the canonical form. -/
theorem launchMeetsInvariant : Obligations.LaunchMeetsInvariant := by
  unfold Obligations.LaunchMeetsInvariant
  intro m
  refine ⟨State.inv_of_running m Memory.wf_reset rfl rfl, fun image himage => ?_, fun s hmem => ?_⟩
  · exact ⟨_, launch_of_fits himage, State.inv_of_running m (Memory.wf_load image 0 rfl) rfl rfl⟩
  · exact State.inv_of_running m hmem rfl rfl

end Sys2Proof.Machine
end

section
/-! SUPPORT. The errors of the instructions one by one (40_fetch_execute.md section 3, 43_stack.md section 1,
44_call_return.md section 2). -/

namespace Sys2Proof.Machine

variable {s : State} {i : Instr}

/-- A well formed instruction passes its register checks (R22, R76). -/
theorem execError_of_wellFormed (h : i.wellFormed = true) (s : State) : execError i s = ownError i s := by
  refine execError_of_find?_none (List.find?_eq_none.2 fun b hb => ?_) s
  rw [List.all_eq_true.1 h b hb]
  exact Bool.false_ne_true

/-- An advancing instruction without a stack access has no check but the end-of-memory check (R79). -/
theorem ownError_of_fallthrough (hadvances : i.advances = true) (haccess : i.access = .none)
    (hpc : 255 < s.pc.toNat + i.width) : ownError i s = some (.outOfBounds .fallthrough) := by
  cases i with
  | ldi | prn | add | mul => exact if_pos hpc
  | push | pop => cases haccess
  | hlt | call | ret => cases hadvances

/-- The sub-cause codes of R114 are distinct. -/
theorem OobCause.code_eq_one {cause : OobCause} (h : cause.code = 0x01) : cause = .fallthrough := by
  revert h
  cases cause <;> decide

/-- An instruction that does not advance never raises the end-of-memory check (R79). -/
theorem exec_ne_fallthrough {t : State} (hadvances : i.advances = false) (hs : s.status = .running)
    (h : exec i s = .next t) :
    ¬ (t.status = .faulted ∧ t.fault.kind = .outOfBoundsAddress ∧ t.fault.info = 0x01) := by
  rintro ⟨hfaulted, hkind, hinfo⟩
  rcases exec_inv h with ⟨e, he, rfl⟩ | hc
  · rcases execError_inv he with ⟨b, rfl⟩ | ⟨cause, rfl, hcause⟩
    · cases hkind
    · rw [hcause (OobCause.code_eq_one hinfo)] at hadvances
      cases hadvances
  · exact hc.status_ne_faulted hs hfaulted

/-- Settles O18: the end-of-memory check is the last of an advancing instruction, and of no other. -/
theorem fallThroughPastEndRaises : Obligations.FallThroughPastEndRaises := by
  unfold Obligations.FallThroughPastEndRaises
  refine ⟨fun i s hadv hacc hwf hpc => ?_, fun r s hsp hpc => ?_, fun r s hsp hpc => ?_,
    fun i s t hadv hs h => exec_ne_fallthrough hadv hs h⟩
  · exact exec_of_execError ((execError_of_wellFormed hwf s).trans (ownError_of_fallthrough hadv hacc hpc))
  · rw [exec_push, if_neg hsp, if_neg (Nat.not_le.2 hpc)]
    rfl
  · have hbefore : spBeforeIncrement s r ≠ 0xFF := hsp
    rw [exec_pop, if_neg hbefore, if_neg (Nat.not_le.2 hpc)]
    rfl

/-- Settles O19: the decrement bound is the first check of PUSH and CALL, and SP = 1 passes it. -/
theorem pushAtZeroRaises : Obligations.PushAtZeroRaises := by
  unfold Obligations.PushAtZeroRaises
  refine fun r s => ⟨fun hsp => ⟨?_, ?_⟩, fun hsp hpc => ?_⟩
  · rw [exec_push, if_pos hsp]
    rfl
  · rw [exec_call, if_pos hsp]
    rfl
  · have hnew : s.sp - 1 = 0 := by rw [hsp]; rfl
    refine ⟨_, (Completion.push r (by rw [hsp]; decide) hpc).exec_eq, (State.setSp_sp ..).trans hnew, ?_⟩
    rw [hnew]
    exact (Memory.read_write ..).trans (if_pos rfl)

/-- Settles O20: the increment bound of POP is on the popped byte where the register is r7, and else on SP. -/
theorem popPastTopRaises : Obligations.PopPastTopRaises := by
  unfold Obligations.PopPastTopRaises
  refine fun s => ⟨fun hsp => ⟨?_, fun r hr => ?_⟩, fun hbyte => ?_, fun hsp hbyte hpc => ?_⟩
  · rw [exec_ret, if_pos hsp]
    rfl
  · rw [exec_pop, spBeforeIncrement, if_neg hr, if_pos hsp]
    rfl
  · have hbefore : spBeforeIncrement s 7 = 0xFF := hbyte
    rw [exec_pop, if_pos hbefore]
    rfl
  · have hpopped : spBeforeIncrement s 7 = s.byteAt 0xFF := by
      rw [spBeforeIncrement, if_pos rfl, hsp]
      rfl
    refine ⟨_, (Completion.pop 7 (hpopped ▸ hbyte) hpc).exec_eq, ?_⟩
    simp [hpopped]

/-- Settles O21: past the decrement bound, CALL checks the return address. -/
theorem callReturnAddressBound : Obligations.CallReturnAddressBound := by
  unfold Obligations.CallReturnAddressBound
  intro r s hsp hpc
  rw [exec_call, if_neg hsp, if_neg (Nat.not_le.2 hpc)]
  rfl

end Sys2Proof.Machine
end

section
/-! SUPPORT. The effects of the instructions one by one, with their frames: each is read off its completion
(41_register_io.md to 44_call_return.md). -/

namespace Sys2Proof.Machine

/-- Settles O24: LDI's completion writes one register and pc. -/
theorem ldiLoadsImmediate : Obligations.LdiLoadsImmediate := by
  unfold Obligations.LdiLoadsImmediate
  intro r v s hpc
  exact ⟨_, (Completion.ldi r v hpc).exec_eq, rfl, fun j => State.setReg_reg .., rfl, rfl, rfl, fun a => rfl⟩

/-- Settles O25: PRN's completion writes the output stream and pc. -/
theorem prnEmitsRegister : Obligations.PrnEmitsRegister := by
  unfold Obligations.PrnEmitsRegister
  intro r s hpc
  exact ⟨_, (Completion.prn r hpc).exec_eq, rfl, rfl, fun j => rfl, rfl, rfl, fun a => rfl⟩

/-- Settles O26: the sum of bytes is modulo 256. -/
theorem addAddsModulo256 : Obligations.AddAddsModulo256 := by
  unfold Obligations.AddAddsModulo256
  intro a b s hpc
  refine ⟨_, (Completion.add a b hpc).exec_eq, rfl, ?_, fun j hj => ?_, rfl, rfl, rfl, fun a => rfl⟩
  · rw [State.setPc_reg, State.setReg_reg, if_pos rfl, BitVec.toNat_add]
  · rw [State.setPc_reg, State.setReg_reg, if_neg hj]

/-- Settles O27: the product of bytes is modulo 256. -/
theorem mulMultipliesModulo256 : Obligations.MulMultipliesModulo256 := by
  unfold Obligations.MulMultipliesModulo256
  intro a b s hpc
  refine ⟨_, (Completion.mul a b hpc).exec_eq, rfl, ?_, fun j hj => ?_, rfl, rfl, rfl, fun a => rfl⟩
  · rw [State.setPc_reg, State.setReg_reg, if_pos rfl, BitVec.toNat_mul]
  · rw [State.setPc_reg, State.setReg_reg, if_neg hj]

/-- Settles O28: PUSH's completion writes SP, the cell at the new SP and pc. -/
theorem pushStoresBelowSp : Obligations.PushStoresBelowSp := by
  unfold Obligations.PushStoresBelowSp
  intro r s hsp hpc
  exact ⟨_, (Completion.push r hsp hpc).exec_eq, rfl, fun j => State.setSp_reg ..,
    (Memory.read_write ..).trans (if_pos rfl), fun a ha => (Memory.read_write ..).trans (if_neg ha), rfl, rfl, rfl⟩

/-- Settles O29: POP's completion writes the register, then SP, and pc. -/
theorem popLoadsFromSp : Obligations.PopLoadsFromSp := by
  unfold Obligations.PopLoadsFromSp
  intro r s hsp hpc
  refine ⟨_, (Completion.pop r hsp hpc).exec_eq, rfl, State.setSp_sp .., fun hr => ?_, fun j hjr hj7 => ?_, rfl, rfl,
    rfl, fun a => rfl⟩
  · rw [State.setPc_reg, State.setSp_reg, if_neg hr, State.setReg_reg, if_pos rfl]
    rfl
  · rw [State.setPc_reg, State.setSp_reg, if_neg hj7, State.setReg_reg, if_neg hjr]

/-- Settles O30: CALL's completion writes SP, the cell at the new SP and pc. -/
theorem callPushesReturnAddress : Obligations.CallPushesReturnAddress := by
  unfold Obligations.CallPushesReturnAddress
  intro r s hsp hpc
  exact ⟨_, (Completion.call r hsp hpc).exec_eq, rfl, fun j => State.setSp_reg ..,
    (Memory.read_write ..).trans (if_pos rfl), fun a ha => (Memory.read_write ..).trans (if_neg ha), rfl, rfl, rfl⟩

/-- Settles O31: RET's completion writes SP and pc. -/
theorem retPopsReturnAddress : Obligations.RetPopsReturnAddress := by
  unfold Obligations.RetPopsReturnAddress
  intro s hsp
  exact ⟨_, (Completion.ret hsp).exec_eq, rfl, fun j => State.setSp_reg .., rfl, rfl, rfl, fun a => rfl⟩

/-- Settles O40: the bound decides between a raise and the cell of the list. -/
theorem memoryReadsLastWrite : Obligations.MemoryReadsLastWrite := by
  unfold Obligations.MemoryReadsLastWrite
  refine fun a v s => ⟨fun ⟨h0, h1⟩ => ?_, fun hout => ⟨memRead_outside s hout, memWrite_outside v s hout⟩⟩
  refine ⟨⟨_, memRead_inside s h0 h1⟩, _, memWrite_inside v s h0 h1, ?_, fun b hb => ?_, rfl, rfl, rfl⟩
  · rw [memRead_inside _ h0 h1, State.setMem_mem, Memory.read_write, if_pos rfl]
  · by_cases hin : 0 ≤ b ∧ b ≤ 255
    · have hne : b.toNat ≠ a.toNat := by omega
      rw [memRead_inside _ hin.1 hin.2, memRead_inside _ hin.1 hin.2, State.setMem_mem, Memory.read_write, if_neg hne]
    · rw [memRead_outside _ (by omega), memRead_outside _ (by omega)]

end Sys2Proof.Machine
end

section
/-! SUPPORT. Two instructions in a row on the stack (20_memory.md section 4, 43_stack.md section 3, 44_call_return.md
section 3). -/

namespace Sys2Proof.Machine

/-- What PUSH r stores: the register's value, read after the decrement (43_stack.md R99, D22). -/
def pushedByte (s : State) (r : RegIdx) : Byte := if r = 7 then s.sp - 1 else s.reg r

/-- The state that PUSH r leaves where it raises nothing (R99). -/
def pushed (s : State) (r : RegIdx) : State :=
  ((s.setSp (s.sp - 1)).setMem (Memory.write s.mem (s.sp - 1).toNat (pushedByte s r))).setPc (s.pc + 2)

variable {m : OpcodeMap} {s t : State} {r : RegIdx}

theorem exec_push_eq_pushed (hsp : s.sp ≠ 0) (hpc : s.pc.toNat + 2 ≤ 255) :
    exec (.push (regByte r)) s = .next (pushed s r) := (Completion.push r hsp hpc).exec_eq

@[simp] theorem pushed_sp (s : State) (r : RegIdx) : (pushed s r).sp = s.sp - 1 := by simp [pushed]
@[simp] theorem pushed_pc (s : State) (r : RegIdx) : (pushed s r).pc = s.pc + 2 := rfl
@[simp] theorem pushed_status (s : State) (r : RegIdx) : (pushed s r).status = s.status := rfl

/-- The pushed byte stands at the new SP. -/
@[simp] theorem read_pushed (s : State) (r : RegIdx) :
    Memory.read (pushed s r).mem (s.sp - 1).toNat = pushedByte s r := by
  simp [pushed]

/-- Settles O37: the pushed byte is byte 0 at the new pc, where the next step fetches it. -/
theorem pushedByteIsFetchedAtOnce : Obligations.PushedByteIsFetchedAtOnce := by
  unfold Obligations.PushedByteIsFetchedAtOnce
  intro m r s t hs hsp hpc hnext hexec b hb
  obtain rfl : pushed s r = t := Host.Outcome.next.inj ((exec_push_eq_pushed hsp hpc).symm.trans hexec)
  have hrunning : (pushed s r).status = .running := hs
  have hplace : (s.pc + 2).toNat = (s.sp - 1).toNat := (toNat_add_of_le hpc).trans hnext.symm
  have hcode : (pushed s r).codeByte 0 = b := by
    rw [hb, State.codeByte, State.byteAt, pushed_pc, Nat.add_zero, hplace, read_pushed]
    rfl
  constructor
  · rintro rfl
    rw [stepWith_of_fetch_ok hrunning (fetch_hlt hcode)]
    exact exec_hlt _
  · rintro hnot
    subst hcode
    rw [stepWith_of_fetch_error hrunning (fetch_unknown hnot)]
    rfl

/-- SP is not 0, so its decrement is not 0xFF. -/
theorem sub_one_ne_top {b : Byte} (h : b ≠ 0) : b - 1 ≠ 0xFF := by
  bv_omega

/-- POP r2 after PUSH r: r2 takes the pushed byte, and SP is one above what the POP found in it (R101, D22). -/
theorem exec_pop_pushed {r2 : RegIdx} (hsp : s.sp ≠ 0) (hpc : s.pc.toNat + 4 ≤ 255)
    (htop : r2 = 7 → pushedByte s r ≠ 0xFF) :
    ∃ u, exec (.pop (regByte r2)) (pushed s r) = .next u ∧ u.pc = s.pc + 4 ∧
      (r2 ≠ 7 → u.reg r2 = pushedByte s r) ∧ u.sp = (if r2 = 7 then pushedByte s r else s.sp - 1) + 1 ∧
      u.byteAt (s.sp - 1).toNat = pushedByte s r := by
  have hbefore : spBeforeIncrement (pushed s r) r2 = if r2 = 7 then pushedByte s r else s.sp - 1 := by
    rw [spBeforeIncrement, pushed_sp, read_pushed]
  have hbound : spBeforeIncrement (pushed s r) r2 ≠ 0xFF := by
    rw [hbefore]
    split
    · exact htop ‹_›
    · exact sub_one_ne_top hsp
  have hpc1 : (s.pc + 2).toNat = s.pc.toNat + 2 := toNat_add_of_le (w := 2) (by omega)
  have hpc2 : (pushed s r).pc.toNat + 2 ≤ 255 := by
    rw [pushed_pc, hpc1]
    omega
  refine ⟨_, (Completion.pop r2 hbound hpc2).exec_eq, ?_, fun h2 => ?_, ?_, read_pushed s r⟩
  · rw [State.setPc_pc, pushed_pc, add_assoc]
    rfl
  · rw [State.setPc_reg, State.setSp_reg, if_neg h2, State.setReg_reg, if_pos rfl, pushed_sp, read_pushed]
  · rw [State.setPc_sp, State.setSp_sp, hbefore]

/-- Settles O38: the four cases of r7 on either side decide what the pushed byte is and what the POP leaves in SP. -/
theorem pushPopRoundTrip : Obligations.PushPopRoundTrip := by
  unfold Obligations.PushPopRoundTrip
  intro r r2 s hsp hpc htop
  have hpushed : r2 = 7 → pushedByte s r ≠ 0xFF := fun h2 => by
    rw [pushedByte]
    split
    · exact sub_one_ne_top hsp
    · exact htop ‹_› h2
  obtain ⟨u, hexec, hupc, hreg, husp, hbyte⟩ := exec_pop_pushed hsp hpc hpushed
  refine ⟨_, u, exec_push_eq_pushed hsp (by omega), hexec, hupc, fun ⟨h1, h2⟩ => ?_, fun ⟨h1, h2⟩ => ?_,
    fun ⟨h1, h2⟩ => ?_, fun ⟨h1, h2⟩ => ?_, hbyte⟩
  · exact ⟨(hreg h2).trans (if_neg h1), by rw [husp, if_neg h2, sub_add_cancel]⟩
  · rw [husp, if_pos h2, pushedByte, if_pos h1, sub_add_cancel]
  · exact ⟨(hreg h2).trans (if_pos h1), by rw [husp, if_neg h2, sub_add_cancel]⟩
  · rw [husp, if_pos h2, pushedByte, if_neg h1]

/-- Settles O39: RET reads SP and the byte there alone, and those are what the CALL left. -/
theorem callReturnRoundTrip : Obligations.CallReturnRoundTrip := by
  unfold Obligations.CallReturnRoundTrip
  intro r s hsp hpc
  refine ⟨_, (Completion.call r hsp hpc).exec_eq, fun u hu hbyte => ?_⟩
  have husp : u.sp = s.sp - 1 := hu.trans (State.setSp_sp ..)
  have hreturn : u.byteAt u.sp.toNat = s.pc + 2 := hbyte.trans (by simp [State.byteAt])
  have hbound : u.sp ≠ 0xFF := husp ▸ sub_one_ne_top hsp
  refine ⟨_, (Completion.ret hbound).exec_eq, hreturn, ?_⟩
  rw [State.setPc_sp, State.setSp_sp, husp, sub_add_cancel]

end Sys2Proof.Machine
end

section
/-! SUPPORT. What an instruction may depend on: the registers that it reads (10_state.md R19), and of memory only the
byte at SP that POP and RET load (20_memory.md R41). -/

namespace Sys2Proof.Machine

variable {m : OpcodeMap} {s s' t : State} {i : Instr} {j : RegIdx} {v : Byte}

/-! ## The registers -/

/-- A register in a list is not one that is not in the list. -/
theorem ne_of_regByte_mem {regs : List Byte} {r j : RegIdx} (hj : regByte j ∉ regs) (hr : regByte r ∈ regs) : r ≠ j :=
  fun h => hj (h ▸ hr)

/-- A completion changes only registers that the instruction writes (R19). -/
theorem Completion.reg_eq (h : Completion s i t) (hj : regByte j ∉ i.regsWritten) : t.reg j = s.reg j := by
  cases h with
  | hlt | prn => rfl
  | ldi r | add r | mul r =>
    have hr : r ≠ j := ne_of_regByte_mem hj (.head _)
    rw [State.setPc_reg, State.setReg_reg, if_neg hr.symm]
  | push | call | ret =>
    have h7 : 7 ≠ j := ne_of_regByte_mem hj (.head _)
    exact (State.setSp_reg ..).trans (if_neg h7.symm)
  | pop r =>
    have hr : r ≠ j := ne_of_regByte_mem hj (.head _)
    have h7 : 7 ≠ j := ne_of_regByte_mem hj (.tail _ (.head _))
    rw [State.setPc_reg, State.setSp_reg, if_neg h7.symm, State.setReg_reg, if_neg hr.symm]

/-- The checks of an instruction depend on pc, on SP where the instruction reads it, and on the byte at SP where the
instruction loads it. -/
theorem execError_congr (hpc : s'.pc = s.pc) (hsp : (7 : Byte) ∈ i.regsRead → s'.sp = s.sp)
    (hbyte : i.access = .readAtSp → s'.byteAt s.sp.toNat = s.byteAt s.sp.toNat) : execError i s' = execError i s := by
  have hown : ownError i s' = ownError i s := by
    cases i with
    | hlt | ldi | prn | add | mul => simp only [ownError, hpc]
    | push | call => simp only [ownError, hpc, hsp (by simp [Instr.regsRead])]
    | pop => simp only [ownError, hpc, hsp (by simp [Instr.regsRead]), hbyte rfl]
    | ret => simp only [ownError, hsp (by simp [Instr.regsRead])]
  rw [execError, execError, hown]

/-- A register that an instruction does not read is no part of its checks (R19). -/
theorem execError_setReg (hr : regByte j ∉ i.regsRead) : execError i (s.setReg j v) = execError i s := by
  refine execError_congr rfl (fun h7 => ?_) fun _ => rfl
  have hj : j ≠ 7 := fun h => hr (h ▸ h7)
  rw [State.setReg_sp, if_neg hj]

theorem setReg_sp_of_ne (hj : 7 ≠ j) : (s.setReg j v).sp = s.sp := by
  rw [State.setReg_sp, if_neg hj.symm]

theorem spBeforeIncrement_setReg (hj : 7 ≠ j) (r : RegIdx) :
    spBeforeIncrement (s.setReg j v) r = spBeforeIncrement s r := by
  rw [spBeforeIncrement, setReg_sp_of_ne hj, State.setReg_mem, spBeforeIncrement]

/-- An instruction that neither reads nor writes a register completes alike whatever that register holds (R19). -/
theorem Completion.setReg_unused (h : Completion s i t) (hr : regByte j ∉ i.regsRead)
    (hw : regByte j ∉ i.regsWritten) : Completion (s.setReg j v) i (t.setReg j v) := by
  cases h with
  | hlt => exact .hlt
  | ldi r w hpc =>
    have hrj : r ≠ j := ne_of_regByte_mem hw (.head _)
    have hc := Completion.ldi (s := s.setReg j v) r w hpc
    rw [State.setReg_comm _ _ _ _ _ hrj.symm] at hc
    exact hc
  | prn r hpc =>
    have hrj : r ≠ j := ne_of_regByte_mem hr (.head _)
    have hc := Completion.prn (s := s.setReg j v) r hpc
    rw [State.setReg_reg, if_neg hrj] at hc
    exact hc
  | add a b hpc =>
    have haj : a ≠ j := ne_of_regByte_mem hr (.head _)
    have hbj : b ≠ j := ne_of_regByte_mem hr (.tail _ (.head _))
    have hc := Completion.add (s := s.setReg j v) a b hpc
    rw [State.setReg_reg, if_neg haj, State.setReg_reg, if_neg hbj, State.setReg_comm _ _ _ _ _ haj.symm] at hc
    exact hc
  | mul a b hpc =>
    have haj : a ≠ j := ne_of_regByte_mem hr (.head _)
    have hbj : b ≠ j := ne_of_regByte_mem hr (.tail _ (.head _))
    have hc := Completion.mul (s := s.setReg j v) a b hpc
    rw [State.setReg_reg, if_neg haj, State.setReg_reg, if_neg hbj, State.setReg_comm _ _ _ _ _ haj.symm] at hc
    exact hc
  | push r hsp hpc =>
    have hrj : r ≠ j := ne_of_regByte_mem hr (.head _)
    have h7j : 7 ≠ j := ne_of_regByte_mem hr (.tail _ (.head _))
    have hc := Completion.push (s := s.setReg j v) r (by rwa [setReg_sp_of_ne h7j]) hpc
    rw [setReg_sp_of_ne h7j, State.setReg_reg, if_neg hrj, State.setSp_eq_setReg,
      State.setReg_comm _ _ _ _ _ h7j.symm] at hc
    exact hc
  | pop r hsp hpc =>
    have h7j : 7 ≠ j := ne_of_regByte_mem hr (.head _)
    have hrj : r ≠ j := ne_of_regByte_mem hw (.head _)
    have hc := Completion.pop (s := s.setReg j v) r (by rwa [spBeforeIncrement_setReg h7j]) hpc
    rw [spBeforeIncrement_setReg h7j, setReg_sp_of_ne h7j, State.setReg_comm _ _ _ _ _ hrj.symm,
      State.setSp_eq_setReg, State.setReg_comm _ _ _ _ _ h7j.symm] at hc
    exact hc
  | call r hsp hpc =>
    have hrj : r ≠ j := ne_of_regByte_mem hr (.head _)
    have h7j : 7 ≠ j := ne_of_regByte_mem hr (.tail _ (.head _))
    have hc := Completion.call (s := s.setReg j v) r (by rwa [setReg_sp_of_ne h7j]) hpc
    rw [setReg_sp_of_ne h7j, State.setReg_reg, if_neg hrj, State.setSp_eq_setReg,
      State.setReg_comm _ _ _ _ _ h7j.symm] at hc
    exact hc
  | ret hsp =>
    have h7j : 7 ≠ j := ne_of_regByte_mem hr (.head _)
    have hc := Completion.ret (s := s.setReg j v) (by rwa [setReg_sp_of_ne h7j])
    rw [setReg_sp_of_ne h7j, State.setSp_eq_setReg, State.setReg_comm _ _ _ _ _ h7j.symm] at hc
    exact hc

/-- An instruction that writes a register without reading it completes in one state whatever that register held
(R19): LDI, and POP of a register other than r7. -/
theorem Completion.setReg_overwritten (h : Completion s i t) (hr : regByte j ∉ i.regsRead)
    (hw : regByte j ∈ i.regsWritten) : Completion (s.setReg j v) i t := by
  cases h with
  | hlt | prn => cases hw
  | add | mul =>
    rw [Instr.regsWritten, List.mem_singleton] at hw
    exact absurd (hw ▸ .head _) hr
  | push => exact absurd (.tail _ hw) hr
  | call => exact absurd (.tail _ hw) hr
  | ret => exact absurd hw hr
  | ldi r w hpc =>
    obtain rfl : j = r := (regByte_inj j r).1 (List.mem_singleton.1 hw)
    have hc := Completion.ldi (s := s.setReg j v) j w hpc
    rw [State.setReg_setReg] at hc
    exact hc
  | pop r hsp hpc =>
    have h7j : 7 ≠ j := ne_of_regByte_mem hr (.head _)
    obtain rfl : j = r := (regByte_inj j r).1 ((List.mem_cons.1 hw).resolve_right hr)
    have hc := Completion.pop (s := s.setReg j v) j (by rwa [spBeforeIncrement_setReg h7j]) hpc
    rw [spBeforeIncrement_setReg h7j, setReg_sp_of_ne h7j, State.setReg_setReg] at hc
    exact hc

/-- Settles O34: the checks read the listed registers alone, and so does each completion. -/
theorem registersReadAndWritten : Obligations.RegistersReadAndWritten := by
  unfold Obligations.RegistersReadAndWritten
  refine ⟨fun i s t j h hne => ?_, fun i s t j v hr hw h => ?_, fun i s t j v hr hw hs h hok => ?_,
    fun i s t hregs hs h hfaulted => registerOperandsCheckedInOrder.2 i s t ((wellFormed_iff i).2 hregs) hs h hfaulted⟩
  · rcases exec_inv h with ⟨e, -, rfl⟩ | hc
    · exact absurd (takeError_reg ..) hne
    · by_contra hw
      exact hne (hc.reg_eq hw)
  · rcases exec_inv h with ⟨e, he, rfl⟩ | hc
    · exact exec_of_execError ((execError_setReg hr).trans he)
    · exact (hc.setReg_unused hr hw).exec_eq
  · rcases exec_inv h with ⟨e, -, rfl⟩ | hc
    · exact absurd (takeError_status s e) hok
    · exact (hc.setReg_overwritten hr hw).exec_eq

/-! ## Memory -/

/-- The fetch depends on the bytes at pc, pc + 1 and pc + 2 that exist (R41, R75). -/
theorem fetch_congr (hpc : t.pc = s.pc) (hbytes : ∀ k, k < 3 → s.pc.toNat + k ≤ 255 → t.codeByte k = s.codeByte k) :
    fetch m t = fetch m s := by
  have h0 : t.codeByte 0 = s.codeByte 0 := hbytes 0 (by omega) (by have := s.pc.isLt; omega)
  rcases fetch_cases m s with ⟨hnot, hf⟩ | ⟨i, hop, ⟨hw, hf⟩ | ⟨hw, hf, -⟩⟩
  · rw [hf, ← h0]
    exact fetch_unknown (h0 ▸ hnot)
  · rw [hf]
    exact fetch_pastEnd i (h0.trans hop) (hpc ▸ hw)
  · rw [hf]
    have hwidth : i.width ≤ 3 := (width_eq_length i).2.2
    exact fetch_ok_of_codeByte_eq hf hpc fun k hk => hbytes k (by omega) (by omega)

/-- One write to two memories: a cell keeps its byte in both, or it is the cell written and has one byte in both. -/
theorem Memory.read_write_both (m m' : Memory) (n a : Nat) (v : Byte) :
    (Memory.read (Memory.write m n v) a = Memory.read m a ∧ Memory.read (Memory.write m' n v) a = Memory.read m' a) ∨
      (a = n ∧ Memory.read (Memory.write m' n v) a = Memory.read (Memory.write m n v) a) := by
  by_cases ha : a = n <;> simp [ha]

/-- An instruction that completes also completes with another memory in which the byte that it loads is the same, and
writes there what it wrote (R41). -/
theorem Completion.setMem (h : Completion s i t) (mem : Memory)
    (hload : i.access = .readAtSp → Memory.read mem s.sp.toNat = s.byteAt s.sp.toNat) :
    ∃ mem', Completion (s.setMem mem) i (t.setMem mem') ∧
      ∀ a, (t.byteAt a = s.byteAt a ∧ Memory.read mem' a = Memory.read mem a) ∨
        (i.access = .writeBelowSp ∧ a = (s.sp - 1).toNat ∧ Memory.read mem' a = t.byteAt a) := by
  cases h with
  | hlt => exact ⟨mem, .hlt, fun a => .inl ⟨rfl, rfl⟩⟩
  | ldi r w hpc => exact ⟨mem, .ldi r w hpc, fun a => .inl ⟨rfl, rfl⟩⟩
  | prn r hpc => exact ⟨mem, .prn r hpc, fun a => .inl ⟨rfl, rfl⟩⟩
  | add a b hpc => exact ⟨mem, .add a b hpc, fun a => .inl ⟨rfl, rfl⟩⟩
  | mul a b hpc => exact ⟨mem, .mul a b hpc, fun a => .inl ⟨rfl, rfl⟩⟩
  | push r hsp hpc =>
    exact ⟨_, .push r hsp hpc, fun a => (Memory.read_write_both s.mem mem _ a _).imp id fun h => ⟨rfl, h⟩⟩
  | call r hsp hpc =>
    exact ⟨_, .call r hsp hpc, fun a => (Memory.read_write_both s.mem mem _ a _).imp id fun h => ⟨rfl, h⟩⟩
  | pop r hsp hpc =>
    have hbyte : Memory.read mem s.sp.toNat = Memory.read s.mem s.sp.toNat := hload rfl
    have hbefore : spBeforeIncrement (s.setMem mem) r = spBeforeIncrement s r := by
      rw [spBeforeIncrement, State.setMem_sp, State.setMem_mem, hbyte, spBeforeIncrement]
    have hc := Completion.pop (s := s.setMem mem) r (by rwa [hbefore]) hpc
    rw [hbefore, State.setMem_sp, State.setMem_mem, hbyte] at hc
    exact ⟨mem, hc, fun a => .inl ⟨rfl, rfl⟩⟩
  | ret hsp =>
    have hbyte : Memory.read mem s.sp.toNat = Memory.read s.mem s.sp.toNat := hload rfl
    have hc := Completion.ret (s := s.setMem mem) hsp
    rw [State.setMem_sp, State.setMem_mem, hbyte] at hc
    exact ⟨mem, hc, fun a => .inl ⟨rfl, rfl⟩⟩

/-- Settles O35: the fetch reads no byte but the instruction's own, a completion writes only what PUSH and CALL store,
and neither the checks nor a completion look at more of memory than POP and RET load. -/
theorem memoryAccessedOnlyAsListed : Obligations.MemoryAccessedOnlyAsListed := by
  unfold Obligations.MemoryAccessedOnlyAsListed
  refine ⟨fun m s t hpc hbytes => fetch_congr hpc hbytes, fun m s t a h hne => ?_, fun i s t mem h hload => ?_⟩
  · rcases stepWith_inv h with ⟨e, -, rfl⟩ | ⟨i, hf, hc⟩
    · exact absurd rfl hne
    · rcases hc.mem_cases with hsame | ⟨v, hwrite, hsp, r, hi⟩
      · exact absurd (congrArg (Memory.read · a) hsame) hne
      · have ha : a = (s.sp - 1).toNat := by
          by_contra ha
          rw [State.byteAt, hwrite, Memory.read_write, if_neg ha] at hne
          exact hne rfl
        rcases hi with rfl | rfl
        · exact ⟨ha, hsp, r, .inl hf⟩
        · exact ⟨ha, hsp, r, .inr hf⟩
  · rcases exec_inv h with ⟨e, he, rfl⟩ | hc
    · have herr : execError i (s.setMem mem) = execError i s := execError_congr rfl (fun _ => rfl) hload
      rw [he] at herr
      exact ⟨mem, exec_of_execError herr, fun a => .inl ⟨rfl, rfl⟩⟩
    · obtain ⟨mem', hc', hmem⟩ := hc.setMem mem hload
      exact ⟨mem', hc'.exec_eq, hmem⟩

end Sys2Proof.Machine
end

section
/-! SUPPORT. Runs: at most one end, and an output that only grows (70_reset_and_hazards.md R137, 00_scope.md section
7). -/

namespace Sys2Proof.Machine

variable {m : OpcodeMap} {s t : State} {i : Instr}

/-- A stopped state is where a run stays (R72). -/
theorem runWith_of_not_running (hs : s.status ≠ .running) (n : Nat) : runWith m n s = s := by
  cases n with
  | zero => rfl
  | succ n =>
    obtain ⟨f, hf⟩ := stepWith_of_not_running m hs
    simp only [runWith, hf]

theorem runWith_succ_of_stepWith (h : stepWith m s = .next t) (n : Nat) : runWith m (n + 1) s = runWith m n t := by
  simp only [runWith, h]

/-- A RUNNING state has a next state (R72). -/
theorem exists_stepWith (m : OpcodeMap) (hs : s.status = .running) : ∃ t, stepWith m s = .next t :=
  (stepEnabledExactlyWhileRunning m s).2 hs

/-- A run of `n + k` steps is a run of `n` steps and then one of `k`. -/
theorem runWith_add (m : OpcodeMap) (n k : Nat) (s : State) : runWith m (n + k) s = runWith m k (runWith m n s) := by
  induction n generalizing s with
  | zero => rw [Nat.zero_add, runWith]
  | succ n ih =>
    by_cases hs : s.status = .running
    · obtain ⟨t, ht⟩ := exists_stepWith m hs
      rw [Nat.add_right_comm, runWith_succ_of_stepWith ht, runWith_succ_of_stepWith ht, ih]
    · rw [runWith_of_not_running hs, runWith_of_not_running hs, runWith_of_not_running hs]

/-- Past an end the run stays in it. -/
theorem runWith_of_le {n n' : Nat} (hle : n ≤ n') (hend : (runWith m n s).status ≠ .running) :
    runWith m n' s = runWith m n s := by
  obtain ⟨k, rfl⟩ := Nat.exists_eq_add_of_le hle
  rw [runWith_add, runWith_of_not_running hend]

/-- A completion leaves the output or appends to it (10_state.md R31). -/
theorem Completion.out_prefix (h : Completion s i t) : s.out <+: t.out := by
  by_cases hprn : ∃ r, i = .prn (regByte r)
  · obtain ⟨r, rfl⟩ := hprn
    exact ⟨_, h.out_prn.symm⟩
  · rw [h.out_eq fun r hr => hprn ⟨r, hr⟩]

theorem out_prefix_of_stepWith (h : stepWith m s = .next t) : s.out <+: t.out := by
  rcases stepWith_inv h with ⟨e, -, rfl⟩ | ⟨i, -, hc⟩
  · exact List.prefix_rfl
  · exact hc.out_prefix

theorem out_prefix_of_runWith (m : OpcodeMap) (n : Nat) (s : State) : s.out <+: (runWith m n s).out := by
  induction n generalizing s with
  | zero => exact List.prefix_rfl
  | succ n ih =>
    by_cases hs : s.status = .running
    · obtain ⟨t, ht⟩ := exists_stepWith m hs
      rw [runWith_succ_of_stepWith ht]
      exact (out_prefix_of_stepWith ht).trans (ih t)
    · rw [runWith_of_not_running hs]

/-- Settles O43: of two ends the later is a stay in the earlier, and each step leaves the output or appends to it. -/
theorem runHasOneEndAndOutputOnlyGrows : Obligations.RunHasOneEndAndOutputOnlyGrows := by
  unfold Obligations.RunHasOneEndAndOutputOnlyGrows
  constructor
  · rintro m s _ _ ⟨n, rfl, hn⟩ ⟨n', rfl, hn'⟩
    rcases Nat.le_total n n' with hle | hle
    · exact (runWith_of_le hle hn).symm
    · exact runWith_of_le hle hn'
  · intro m s n k
    rw [runWith_add]
    exact out_prefix_of_runWith m k _

end Sys2Proof.Machine
end

section
/-! SUPPORT. The bytes at pc as a list (40_fetch_execute.md section 6), the host's side (60_exceptions.md section 3), and
the launch and reset values (10_state.md section 5, 70_reset_and_hazards.md section 1). -/

namespace Sys2Proof.Machine

variable {m : OpcodeMap} {s : State} {i : Instr}

@[simp] theorem length_codeBytes (s : State) : (codeBytes s).length = 256 - s.pc.toNat := by
  simp [codeBytes]

theorem getElem?_codeBytes {k : Nat} (h : s.pc.toNat + k < 256) : (codeBytes s)[k]? = some (s.codeByte k) := by
  have hk : k < Config.memSize - s.pc.toNat := Nat.lt_sub_of_add_lt (Nat.add_comm k _ ▸ h)
  rw [codeBytes, List.getElem?_map, List.getElem?_range hk]
  rfl

/-- Bytes from pc on that begin with an instruction's encoding are fetched as it (R75). -/
theorem fetch_of_codeBytes {rest : List Byte} (h : codeBytes s = encode m i ++ rest) : fetch m s = .ok i := by
  have hlength := congrArg List.length h
  rw [length_codeBytes, List.length_append, length_encode] at hlength
  have hw := width_pos i
  refine fetch_ok (by omega) fun k hk => ?_
  rw [← getElem?_codeBytes (by omega), h, List.getElem?_append_left (by rwa [length_encode])]

/-- Settles O11: the decoder on the bytes from pc on and the fetch answer the same instruction. -/
theorem stepRunsDecodedInstruction : Obligations.StepRunsDecodedInstruction := by
  unfold Obligations.StepRunsDecodedInstruction
  refine ⟨fun m s i rest hs h => ?_, fun m s i hs hw hb => ?_, fun s => rfl⟩
  · exact stepWith_of_fetch_ok hs (fetch_of_codeBytes (decode_eq_ok.1 h))
  · exact stepWith_of_fetch_ok hs (fetch_ok hw hb)

/-- The status codes of D11 are distinct. -/
theorem Status.code_inj {a b : Status} : a.code = b.code ↔ a = b := by
  cases a <;> cases b <;> decide

/-- The kind codes of R111 are distinct. -/
theorem ErrorKind.code_inj {a b : ErrorKind} : a.code = b.code ↔ a = b := by
  cases a <;> cases b <;> decide

theorem State.outcome_eq_notYetEnded (s : State) : s.outcome = .notYetEnded ↔ s.status = .running := by
  rw [State.outcome]
  cases s.status <;> simp

theorem State.outcome_eq_cleanEnd (s : State) : s.outcome = .cleanEnd ↔ s.status = .halted := by
  rw [State.outcome]
  cases s.status <;> simp

theorem State.outcome_eq_error (s : State) (k : ErrorKind) :
    s.outcome = .error k ↔ s.status = .faulted ∧ s.fault.kind = k := by
  rw [State.outcome]
  cases s.status <;> simp

/-- With the status code of an error, the kind output tells the kinds of the outcome apart (R111, R128). -/
theorem State.ports_faulted_iff (s : State) (k : ErrorKind) :
    s.ports.status = Status.faulted.code ∧ s.ports.faultKind = k.code ↔ s.outcome = .error k := by
  rw [State.outcome_eq_error]
  exact and_congr Status.code_inj ErrorKind.code_inj

/-- Settles O44: each outcome is one status, each error outcome one kind with it, and the codes are distinct. -/
theorem hostSeesOutcome : Obligations.HostSeesOutcome := by
  unfold Obligations.HostSeesOutcome
  intro s
  refine ⟨?_, ?_, ?_, ?_, s.ports_faulted_iff .unknownOpcode, s.ports_faulted_iff .invalidRegister,
    s.ports_faulted_iff .outOfBoundsAddress, s.ports_faulted_iff .unsupportedAluOperation, rfl, rfl, fun m => ?_⟩
  · exact (Status.code_inj (b := .running)).trans s.outcome_eq_notYetEnded.symm
  · exact (Status.code_inj (b := .halted)).trans s.outcome_eq_cleanEnd.symm
  · refine (Status.code_inj (b := .faulted)).trans ⟨fun h => ⟨_, (s.outcome_eq_error _).2 ⟨h, rfl⟩⟩, ?_⟩
    rintro ⟨k, hk⟩
    exact ((s.outcome_eq_error k).1 hk).1
  · change s.status.code ≠ 0b11
    cases s.status <;> decide
  · exact s.outcome_eq_notYetEnded.trans (stepEnabledExactlyWhileRunning m s).symm

/-- The registers at reset (10_state.md R36). -/
theorem reg_reset (r : RegIdx) : State.reset.reg r = if r = 7 then 0xF4 else 0 := by
  revert r
  decide

/-- Settles O2: the launch state is the state at reset but for memory. -/
theorem launchValues : Obligations.LaunchValues := by
  unfold Obligations.LaunchValues
  exact ⟨fun image himage => ⟨_, launch_of_fits himage, reg_reset, rfl, rfl, rfl, rfl, rfl, rfl⟩, rfl⟩

/-- Settles O3: the length decides, and in empty memory the fetch at pc 0 finds the byte 0x00, which is no opcode. -/
theorem oversizedImageRefusedEmptyLegal : Obligations.OversizedImageRefusedEmptyLegal := by
  unfold Obligations.OversizedImageRefusedEmptyLegal
  refine ⟨fun image himage => if_neg (Nat.not_le.2 himage), State.reset, rfl, ?_⟩
  exact stepWith_of_fetch_error rfl (fetch_unknown (by decide))

/-- Settles O4: the reset input writes every field but memory, and leaves RUNNING, where a step is enabled. -/
theorem resetInputKeepsMemory : Obligations.ResetInputKeepsMemory := by
  unfold Obligations.ResetInputKeepsMemory
  exact fun s => ⟨rfl, rfl, rfl, rfl, rfl, rfl, fun m => exists_stepWith m (applyReset_status s)⟩

end Sys2Proof.Machine
end

section
/-! SUPPORT. The assembler on what `listing` writes (30_encoding.md R68, D20). -/

namespace Sys2Proof.Assembly

open Sys2Proof.Machine (wellFormed_iff)

/-! ## Cutting a text at its separators -/

/-- The cut is the library's. -/
theorem splitAtSep_eq_splitOnP (sep : Char → Bool) (text : List Char) : splitAtSep sep text = text.splitOnP sep := by
  induction text with
  | nil => rfl
  | cons c rest ih =>
    rw [splitAtSep, List.splitOnP_cons_eq_if_modifyHead, ih]
    cases hrest : rest.splitOnP sep with
    | nil => exact absurd hrest (List.splitOnP_ne_nil sep rest)
    | cons word words => rfl

/-- The words of words with a space between each and the next are those words. -/
theorem words_intercalate {ws : List (List Char)} (hws : ws ≠ []) (hspace : ∀ w ∈ ws, ' ' ∉ w)
    (hempty : ∀ w ∈ ws, w ≠ []) : words ([' '].intercalate ws) = ws := by
  have hcut : splitAtSep (fun c => c == ' ') ([' '].intercalate ws) = ws := by
    rw [splitAtSep_eq_splitOnP]
    exact List.splitOn_intercalate ' ' hspace hws
  rw [words, hcut, List.filter_eq_self]
  intro w hw
  simpa using hempty w hw

/-- A space before a statement adds no word. -/
theorem words_space_cons (text : List Char) : words (' ' :: text) = words text := by
  simp [words, splitAtSep]

/-! ## The words of an instruction -/

/-- The words that an instruction is written in (R68). -/
def tokens : Instr → List (List Char)
  | .hlt => [['H', 'L', 'T']]
  | .ldi reg value => [['L', 'D', 'I'], showRegister reg, Nat.toDigits 10 value.toNat]
  | .prn reg => [['P', 'R', 'N'], showRegister reg]
  | .add regA regB => [['A', 'D', 'D'], showRegister regA, showRegister regB]
  | .mul regA regB => [['M', 'U', 'L'], showRegister regA, showRegister regB]
  | .push reg => [['P', 'U', 'S', 'H'], showRegister reg]
  | .pop reg => [['P', 'O', 'P'], showRegister reg]
  | .call reg => [['C', 'A', 'L', 'L'], showRegister reg]
  | .ret => [['R', 'E', 'T']]

/-- The listing of a well formed instruction is its words with a space between each and the next. -/
theorem listing_eq (i : Instr) :
    listing i = if i.wellFormed then some ([' '].intercalate (tokens i)) else none := by
  cases i <;> simp [listing, tokens]

/-- Not a separator: of words a space, of statements a newline or a semicolon (R68). -/
def isPlain (c : Char) : Bool := c != ' ' && c != '\n' && c != ';'

/-- A word: at least one character, and no separator. -/
def isWord (w : List Char) : Bool := !w.isEmpty && w.all isPlain

theorem isWord_iff {w : List Char} : isWord w = true ↔ w ≠ [] ∧ ∀ c ∈ w, c ≠ ' ' ∧ c ≠ '\n' ∧ c ≠ ';' := by
  simp [isWord, isPlain, and_assoc]

theorem isWord_toDigits (n : Nat) : isWord (Nat.toDigits 10 n) = true := by
  refine isWord_iff.2 ⟨Nat.toDigits_ne_nil, fun c hc => ?_⟩
  have hdigit : c.isDigit := Nat.isDigit_of_mem_toDigits (by decide) (by decide) hc
  refine ⟨?_, ?_, ?_⟩ <;> rintro rfl <;> exact absurd hdigit (by decide)

theorem isWord_showRegister (b : Byte) : isWord (showRegister b) = true := by
  rw [showRegister, isWord_iff, List.forall_mem_cons]
  exact ⟨List.cons_ne_nil _ _, by decide, (isWord_iff.1 (isWord_toDigits b.toNat)).2⟩

/-- What an instruction is written in are words. -/
theorem isWord_of_mem_tokens {i : Instr} : ∀ w ∈ tokens i, isWord w = true := by
  cases i <;> simp only [tokens, List.forall_mem_cons, List.not_mem_nil, false_imp_iff, implies_true, and_true,
    isWord_showRegister, isWord_toDigits] <;> rfl

theorem tokens_ne_nil (i : Instr) : tokens i ≠ [] := by
  cases i <;> exact List.cons_ne_nil _ _

/-- What stands in a listing is a space or a character of a word. -/
theorem mem_intercalate_space {ws : List (List Char)} {c : Char} (h : c ∈ [' '].intercalate ws) :
    c = ' ' ∨ ∃ w ∈ ws, c ∈ w := by
  induction ws with
  | nil => cases h
  | cons w rest ih =>
    cases rest with
    | nil => exact .inr ⟨w, .head _, by simpa using h⟩
    | cons w' rest =>
      rw [List.intercalate_cons_cons, List.append_assoc, List.mem_append, List.mem_append, List.mem_singleton] at h
      rcases h with hw | hspace | hrest
      · exact .inr ⟨w, .head _, hw⟩
      · exact .inl hspace
      · exact (ih hrest).imp id fun ⟨v, hv, hc⟩ => ⟨v, .tail _ hv, hc⟩

/-! ## Reading the words back -/

theorem decimalDigit_of_isDigit {c : Char} (h : c.isDigit) : decimalDigit c = some (c.toNat - '0'.toNat) :=
  if_pos (Char.isDigit_iff_toNat.1 h)

/-- Decimal digits are read as the number that they are of. -/
theorem digitsFrom_eq_ofDigitChars {w : List Char} (h : ∀ c ∈ w, c.isDigit) (acc : Nat) :
    digitsFrom 10 decimalDigit acc w = some (Nat.ofDigitChars 10 w acc) := by
  induction w generalizing acc with
  | nil => rfl
  | cons c rest ih =>
    simp only [digitsFrom, decimalDigit_of_isDigit (h c (.head _)), Nat.ofDigitChars_cons]
    rw [ih fun d hd => h d (.tail _ hd), Nat.mul_comm]

/-- A number that does not begin with 0x is read as decimal. -/
theorem immediate_of_digits {w : List Char} (hw : w ≠ []) (h : ∀ c ∈ w, c.isDigit) :
    immediate w =
      match digitsFrom 10 decimalDigit 0 w with
      | some n => if n ≤ 255 then some (BitVec.ofNat 8 n) else none
      | none => none := by
  unfold immediate
  split
  · exact absurd rfl hw
  · exact absurd (h 'x' (.tail _ (.head _))) (by decide)
  · rfl

/-- An immediate written in decimal is read back (R68). -/
theorem immediate_toDigits (v : Byte) : immediate (Nat.toDigits 10 v.toNat) = some v := by
  have hdigits : ∀ c ∈ Nat.toDigits 10 v.toNat, c.isDigit :=
    fun c hc => Nat.isDigit_of_mem_toDigits (by decide) (by decide) hc
  rw [immediate_of_digits Nat.toDigits_ne_nil hdigits, digitsFrom_eq_ofDigitChars hdigits,
    Nat.ofDigitChars_toDigits (by decide) (by decide)]
  simp
  have := v.isLt
  omega

/-- A register r0 to r7 is read back (R68). -/
theorem register_showRegister {b : Byte} (h : ∃ r : RegIdx, b = Machine.regByte r) :
    register (showRegister b) = some b := by
  obtain ⟨r, rfl⟩ := h
  revert r
  decide

/-- The words of a well formed instruction are read back as it (R68). -/
theorem instruction_tokens {i : Instr} (h : i.wellFormed = true) : instruction (tokens i) = some i := by
  have hregs := (wellFormed_iff i).1 h
  cases i <;> simp_all [tokens, instruction, Instr.registerOperands, register_showRegister, immediate_toDigits]

/-! ## Programs -/

/-- Where a statement ends (R68). -/
def endsStatement (c : Char) : Bool := c == '\n' || c == ';'

/-- The words of each statement that has any. -/
def statements (text : List Char) : List (List (List Char)) :=
  ((splitAtSep endsStatement text).map words).filter fun ws => !ws.isEmpty

theorem program_eq (text : List Char) : program text = (statements text).mapM instruction := rfl

/-- A text is one statement, and its words are read as the instruction `i`. -/
structure IsStatementOf (i : Instr) (text : List Char) : Prop where
  noEnd : ∀ c ∈ text, endsStatement c = false
  hasWord : words text ≠ []
  reads : instruction (words text) = some i

/-- What is written for an instruction is one statement, which is read as that instruction. -/
theorem isStatementOf_of_listing {i : Instr} {text : List Char} (h : listing i = some text) : IsStatementOf i text := by
  rw [listing_eq] at h
  split at h
  case isFalse => cases h
  case isTrue hwf =>
    obtain rfl : [' '].intercalate (tokens i) = text := Option.some.inj h
    have hplain := fun w hw => isWord_iff.1 (isWord_of_mem_tokens (i := i) w hw)
    have hwords : words ([' '].intercalate (tokens i)) = tokens i :=
      words_intercalate (tokens_ne_nil i) (fun w hw hc => ((hplain w hw).2 _ hc).1 rfl) fun w hw => (hplain w hw).1
    refine ⟨fun c hc => ?_, by rw [hwords]; exact tokens_ne_nil i, by rw [hwords]; exact instruction_tokens hwf⟩
    rcases mem_intercalate_space hc with rfl | ⟨w, hw, hcw⟩
    · rfl
    · obtain ⟨-, hnl, hsemi⟩ := (hplain w hw).2 c hcw
      simp [endsStatement, hnl, hsemi]

/-- A space before a statement leaves it that statement. -/
theorem IsStatementOf.space_cons {i : Instr} {text : List Char} (h : IsStatementOf i text) :
    IsStatementOf i (' ' :: text) where
  noEnd := List.forall_mem_cons.2 ⟨rfl, h.noEnd⟩
  hasWord := by rw [words_space_cons]; exact h.hasWord
  reads := by rw [words_space_cons]; exact h.reads

theorem IsStatementOf.statements_eq {i : Instr} {text : List Char} (h : IsStatementOf i text) :
    statements text = [words text] := by
  rw [statements, splitAtSep_eq_splitOnP, List.splitOnP_eq_singleton h.noEnd]
  simp [h.hasWord]

theorem IsStatementOf.statements_append {i : Instr} {x : List Char} (h : IsStatementOf i x) (y : List Char) :
    statements (x ++ ';' :: y) = words x :: statements y := by
  rw [statements, splitAtSep_eq_splitOnP, List.splitOnP_append_cons_of_forall_mem h.noEnd ';' rfl, statements,
    splitAtSep_eq_splitOnP]
  simp [h.hasWord]

/-- Settles O45: a listing is one statement that is read back as its instruction, and a semicolon ends it. -/
theorem assemblerInvertsListing : Obligations.AssemblerInvertsListing := by
  unfold Obligations.AssemblerInvertsListing
  refine ⟨fun i => ?_, fun m i text h => ?_, fun m i j x y hx hy => ?_⟩
  · rw [listing_eq]
    split <;> simp [*]
  · have hi := isStatementOf_of_listing h
    simp [assemble, program_eq, hi.statements_eq, hi.reads]
  · have hi := isStatementOf_of_listing hx
    have hj := (isStatementOf_of_listing hy).space_cons
    have htext : x ++ [';', ' '] ++ y = x ++ ';' :: (' ' :: y) := by simp
    simp [assemble, program_eq, htext, hi.statements_append, hj.statements_eq, hi.reads, hj.reads]

end Sys2Proof.Assembly
end
